-- ==== Sys2Proof/Word.lean ====
section
/-! DEFINITION. The elementary types of the PDU engine (spec R8, R10): bytes and words, which are bits, and
the two kinds of numbers whose width is a parameter. -/

namespace Sys2Proof

/-- A byte (R8): one element of a request or a response. -/
abbrev Byte := BitVec 8

/-- A word (R8): a register value, or one of the two 16-bit fields of a request. -/
abbrev Word := BitVec 16

/-- A flat address (R10, R31): a number below `2^ADDR_W` (`State.StoreOk`; log 10). -/
abbrev Addr := Nat

/-- A hook identifier (R10): a number below `2^HOOK_ID_W` (`State.StoreOk`). -/
abbrev HookId := Nat

end Sys2Proof
end

