-- ==== Sys2Proof/Config.lean ====
section
/-! DEFINITION. The parameters (R5) and protocol constants (R6) of this hardware, and the values the
spec leaves free (U1, U3): opaque constants, of which nothing can be proved. -/

namespace Sys2Proof

/-- The parameters of the block (R5) whose value an instantiation may choose. State holds them, so that a
claim over every state is a claim over every instantiation (log 11). `HREG_ONLY` is the strap's own field
of State. `VAL_W` and `OFF_W` are fixed at 16: they are the width of `Word`. -/
structure Params where
  /-- `ADDR_W`: bits of a flat address. -/
  addrW : Nat
  /-- `STORE_CAP`: most entries of the Register Store; `none` is unbounded. -/
  storeCap : Option Nat
  /-- `REQ_CAP`: bytes in the request buffer. -/
  reqCap : Nat
  /-- `RESP_CAP`: bytes in the response buffer. -/
  respCap : Nat
  /-- `HOOK_ID_W`: bits of a hook identifier. -/
  hookIdW : Nat
  /-- `SRC_LOCAL`: the source tag of a write from the configuration port. -/
  srcLocal : Byte
  deriving DecidableEq, Repr

/-- What every instantiation must satisfy (R5, column "constraint"); the other parameters are free. -/
abbrev Params.Ok (p : Params) : Prop := 16 ≤ p.addrW ∧ 252 ≤ p.reqCap ∧ 5 ≤ p.respCap

end Sys2Proof

namespace Sys2Proof.Config

/-- The values R5 fixes for this hardware (decisions D3, D5, D27, D13, D6, D16; logs 10, 11, 14, 20, 25,
27). -/
def params : Params where
  addrW := 17
  storeCap := none
  reqCap := 253
  respCap := 252
  hookIdW := 8
  srcLocal := 0x00#8

/-- `HREG_ONLY` (R5, D23): the strap's value for this hardware, the value State starts with. -/
def hregOnly : Bool := false

/-! The function codes (R6). `0x01` and `0x03` are the source's; the other six are PRESUMED
(general knowledge, fixed by decision D1; log 9). -/

def fcReadCoils   : Byte := 0x01#8
def fcReadDinputs : Byte := 0x02#8
def fcReadHregs   : Byte := 0x03#8
def fcReadIregs   : Byte := 0x04#8
def fcWriteCoil   : Byte := 0x05#8
def fcWriteHreg   : Byte := 0x06#8
def fcWriteCoils  : Byte := 0x0F#8
def fcWriteHregs  : Byte := 0x10#8

/-! The exception codes (R6, R125). The first two are the source's; the last two are PRESUMED
(general knowledge, fixed by decision D2; log 9). -/

def exIllegalFunction : Byte := 0x01#8
def exIllegalAddress  : Byte := 0x02#8
def exIllegalValue    : Byte := 0x03#8
def exSlaveFailure    : Byte := 0x04#8

/-- `COIL_ON` (R6). -/
def coilOn : Word := 0xFF00#16

/-- `COIL_OFF` (R6). -/
def coilOff : Word := 0x0000#16

/-! The four bases of the Modicon numbering (R6, R40). -/

def baseCoil   : Nat := 1
def baseDinput : Nat := 10001
def baseIreg   : Nat := 30001
def baseHreg   : Nat := 40001

/-- FREE VALUE (R17, U3, D12): the request byte read at an index at or beyond `req_len`.
The first argument counts the PDUs accepted, the second is the index (log 3). -/
opaque freeReqByte : Nat → Nat → Byte

/-- FREE VALUE (R74, U1, D6): the hook environment's answer to one call. The first argument counts
the answers drawn so far; the others are what the engine drives on the hook port: `hook_id`,
`address`, `proposed`, `src` (log 4). -/
opaque freeHookAnswer : Nat → HookId → Addr → Word → Byte → Word

end Sys2Proof.Config
end

