-- ==== Sys2Proof/Syntax.lean ====
section
/-! DEFINITION. The instructions: the eight function codes of R59 with the operands of R65. -/

namespace Sys2Proof

/-- The kind a function code or a configuration operation implies (R13, R40, R59). It is stored
nowhere: it only selects a base. -/
inductive Kind where
  /-- `Coil`: a single-bit read/write output. -/
  | coil
  /-- `DInput`: a discrete input. -/
  | dinput
  /-- `IReg`: an input register. -/
  | ireg
  /-- `HReg`: a holding register. -/
  | hreg
  deriving DecidableEq, Repr

/-- One request PDU (R50 to R53, R59, R65). A multi-write carries its byte count `bc` and its payload
bytes; the payload is there exactly when the value check passes, since only then is it read
(R58, R63; WellFormed.lean, log 13). A byte 0 outside the table of R59 is no instruction: the
dispatcher answers it (R88). -/
inductive Instr where
  /-- `RC start, count`: read coils, `0x01`, format RD (R101). -/
  | rc (start count : Word)
  /-- `RDI start, count`: read discrete inputs, `0x02`, format RD (R102). -/
  | rdi (start count : Word)
  /-- `RHR start, count`: read holding registers, `0x03`, format RD (R96). -/
  | rhr (start count : Word)
  /-- `RIR start, count`: read input registers, `0x04`, format RD (R97). -/
  | rir (start count : Word)
  /-- `WSC off, value`: write single coil, `0x05`, format WS (R106). -/
  | wsc (off value : Word)
  /-- `WSR off, value`: write single register, `0x06`, format WS (R105). -/
  | wsr (off value : Word)
  /-- `WMC start, count, bc, [b0, b1, ...]`: write multiple coils, `0x0F`, format WM (R111). -/
  | wmc (start count : Word) (bc : Byte) (payload : List Byte)
  /-- `WMR start, count, bc, [...]`: write multiple registers, `0x10`, format WM (R110). -/
  | wmr (start count : Word) (bc : Byte) (payload : List Byte)
  deriving DecidableEq, Repr

end Sys2Proof
end

