-- ==== Sys2Proof/Machine/Operands.lean ====
section
/-! DEFINITION. Operands and formats, without any state: big-endian words (R34), flat addresses (R40,
R49), the value checks (R67, R128), the bit a value stands for and the bit order of groups (R35, R100,
R113), and the response formats RR, RB, WR, EX (R54 to R56). -/

namespace Sys2Proof.Machine

/-! ### Big-endian words (R34) -/

/-- `{hi, lo}` (R8, R34): the 16-bit number whose more significant byte stands at the lower index. -/
def be16 (hi lo : Byte) : Word := hi ++ lo

/-- `v[15:8]`. -/
def hiByte (v : Word) : Byte := v.extractLsb' 8 8

/-- `v[7:0]`. -/
def loByte (v : Word) : Byte := v.extractLsb' 0 8

/-- The two-byte image `MemWrite(i, 2, v)` writes (R34). -/
def be16Bytes (v : Word) : List Byte := [hiByte v, loByte v]

/-! ### Flat addresses (R40, R49) -/

/-- `base(kind)` (R40). -/
def kindBase : Kind → Nat
  | .coil => Config.baseCoil
  | .dinput => Config.baseDinput
  | .ireg => Config.baseIreg
  | .hreg => Config.baseHreg

/-- `flat(kind, off) = (off + base(kind)) mod 2^ADDR_W` (R40). `off` is any natural number, so item
`k` of a range is at `start + k` with the sum not truncated to 16 bits (R49). -/
def flat (addrW : Nat) (kind : Kind) (off : Nat) : Addr := (off + kindBase kind) % 2 ^ addrW

/-! ### Value checks, step (a) of a handler (R67, R128) -/

/-- `ceil(n/8)` (R67). -/
def ceilDiv8 (n : Nat) : Nat := (n + 7) / 8

/-- `RHR`, `RIR`: `1 <= count <= 125`. -/
def regCountOk (count : Word) : Bool := decide (1 ≤ count.toNat) && decide (count.toNat ≤ 125)

/-- `RC`, `RDI`: `1 <= count <= 2000`. -/
def bitCountOk (count : Word) : Bool := decide (1 ≤ count.toNat) && decide (count.toNat ≤ 2000)

/-- `WSC`: the value is exactly `0xFF00` or `0x0000`. -/
def coilValueOk (value : Word) : Bool := value == Config.coilOn || value == Config.coilOff

/-- `WMR`: `1 <= count <= 123` and `bc = 2*count`, compared as integers. -/
def wmrValueOk (count : Word) (bc : Byte) : Bool :=
  decide (1 ≤ count.toNat) && decide (count.toNat ≤ 123) && decide (bc.toNat = 2 * count.toNat)

/-- `WMC`: `1 <= count <= 1968` and `bc = ceil(count/8)`, compared as integers. -/
def wmcValueOk (count : Word) (bc : Byte) : Bool :=
  decide (1 ≤ count.toNat) && decide (count.toNat ≤ 1968) && decide (bc.toNat = ceilDiv8 count.toNat)

/-! ### Bits (R35, R100, R113) -/

/-- `Bit(v)` (R100, D7): 1 exactly for `0xFF00`. -/
def bitOf (v : Word) : Bool := v == Config.coilOn

/-- The 16-bit value a coil bit is written as (R37, R113). -/
def coilWord (b : Bool) : Word := if b then Config.coilOn else Config.coilOff

/-- Payload byte `P[j]` of `Pack` (R100): bit `i` is item `8j + i` when `8j + i < count`, else 0. The
bits start at 0 and are then conditionally set, in ascending `i`. -/
def packByte (bit : Nat → Bool) (count j : Nat) : Byte :=
  (List.range 8).foldl
    (fun p i => if decide (8 * j + i < count) && bit (8 * j + i) then p ||| BitVec.twoPow 8 i else p)
    0#8

/-- `v_k = MemRead(6 + 2k, 2)` (R58, R110), `payload` starting at request index 6. -/
def payloadWord (payload : List Byte) (k : Nat) : Word :=
  be16 (payload.getD (2 * k) 0#8) (payload.getD (2 * k + 1) 0#8)

/-- Coil `k` of a payload: bit `k mod 8` of payload byte `k div 8` (R113). -/
def payloadBit (payload : List Byte) (k : Nat) : Bool :=
  (payload.getD (k / 8) 0#8).getLsbD (k % 8)

/-! ### Response formats (R54 to R56) -/

/-- Format RR (R54): function code, byte count `2*count`, then the registers, big-endian. -/
def formatRR (fc : Byte) (v : Nat → Word) (count : Nat) : List Byte :=
  fc :: BitVec.ofNat 8 (2 * count) :: (List.range count).flatMap (fun k => be16Bytes (v k))

/-- Format RB (R55): function code, byte count `ceil(count/8)`, then the packed bits. -/
def formatRB (fc : Byte) (bit : Nat → Bool) (count : Nat) : List Byte :=
  fc :: BitVec.ofNat 8 (ceilDiv8 count) :: (List.range (ceilDiv8 count)).map (packByte bit count)

/-- Format WR (R56, R115): function code, `field1`, `field2`. -/
def formatWR (fc : Byte) (field1 field2 : Word) : List Byte :=
  fc :: (be16Bytes field1 ++ be16Bytes field2)

/-- Format EX (R56, R69): `fc | 0x80` (an OR, not a sum) and the exception code. -/
def formatEX (fc code : Byte) : List Byte := [fc ||| 0x80#8, code]

end Sys2Proof.Machine
end

