-- ==== Sys2Proof/WellFormed.lean ====
section
/-! DEFINITION. Which terms of `Instr` are request PDUs. Every operand value of formats RD and WS is
encodable. A multi-write has `6 + bc` bytes when its value check passes and only its first 6 bytes
are read when it fails (R53, R58, R63), so its payload has `bc` bytes or none (log 13). -/

namespace Sys2Proof

/-- The number of payload bytes a multi-write is read with (R63). -/
def payloadNeed (valueOk : Bool) (bc : Byte) : Nat := if valueOk then bc.toNat else 0

/-- The term is the decoding of some request PDU. -/
def Instr.wellFormed : Instr → Bool
  | .rc _ _ => true
  | .rdi _ _ => true
  | .rhr _ _ => true
  | .rir _ _ => true
  | .wsc _ _ => true
  | .wsr _ _ => true
  | .wmc _ count bc payload => payload.length == payloadNeed (Machine.wmcValueOk count bc) bc
  | .wmr _ count bc payload => payload.length == payloadNeed (Machine.wmrValueOk count bc) bc

end Sys2Proof
end

