-- ==== Sys2Proof/Decode.lean ====
section
/-! DEFINITION. The PDU decoder (R57 to R64, R86) and the encoder. -/

namespace Sys2Proof

open Machine

/-- Why a byte sequence is no instruction. -/
inductive DecodeError where
  /-- Byte 0 is not in the table of R59 (R60): the dispatcher raises `IllegalFunction` (R88). -/
  | unknownFunction (fc : Byte)
  /-- Fewer bytes than the needed length `need(req)` of R63. Only `decode`, on a plain list of bytes,
  answers this: the engine compares nothing with `req_len`, and reads free bytes there (R17). -/
  | truncated (need : Nat)
  deriving DecidableEq, Repr

/-- `MemRead(i, 2)` (R34) over any source of bytes. -/
def fieldAt (byteAt : Nat → Byte) (i : Nat) : Word := be16 (byteAt i) (byteAt (i + 1))

/-- The payload bytes `6 .. 5+bc`, read only when the value check has passed (R32, R58). -/
def payloadAt (byteAt : Nat → Byte) (valueOk : Bool) (bc : Byte) : List Byte :=
  (List.range (payloadNeed valueOk bc)).map (fun k => byteAt (6 + k))

/-- The decoder (R57, R58, R59, R86): all eight bits of byte 0 select the function, bytes 1-2 and 3-4
are the two fields; `none` is an unknown function code (R60). -/
def decodeAt (byteAt : Nat → Byte) : Option Instr :=
  let fc := byteAt 0
  let field1 := fieldAt byteAt 1
  let field2 := fieldAt byteAt 3
  if fc = Config.fcReadHregs then some (.rhr field1 field2)
  else if fc = Config.fcWriteHreg then some (.wsr field1 field2)
  else if fc = Config.fcWriteHregs then
    some (.wmr field1 field2 (byteAt 5) (payloadAt byteAt (wmrValueOk field2 (byteAt 5)) (byteAt 5)))
  else if fc = Config.fcReadCoils then some (.rc field1 field2)
  else if fc = Config.fcReadDinputs then some (.rdi field1 field2)
  else if fc = Config.fcReadIregs then some (.rir field1 field2)
  else if fc = Config.fcWriteCoil then some (.wsc field1 field2)
  else if fc = Config.fcWriteCoils then
    some (.wmc field1 field2 (byteAt 5) (payloadAt byteAt (wmcValueOk field2 (byteAt 5)) (byteAt 5)))
  else none

/-- The needed length of an instruction in bytes (R63): 5, or 6 and its payload. -/
def instrLength : Instr → Nat
  | .rc _ _ => 5
  | .rdi _ _ => 5
  | .rhr _ _ => 5
  | .rir _ _ => 5
  | .wsc _ _ => 5
  | .wsr _ _ => 5
  | .wmc _ _ _ payload => 6 + payload.length
  | .wmr _ _ _ payload => 6 + payload.length

/-- Decode a plain list of bytes: the instruction at its front and the bytes behind it (R64), or why
there is none. -/
def decode (bs : List Byte) : Except DecodeError (Instr × List Byte) :=
  match bs with
  | [] => .error (.truncated 1)
  | fc :: _ =>
    match decodeAt (fun i => bs.getD i 0#8) with
    | none => .error (.unknownFunction fc)
    | some i =>
      if bs.length < instrLength i then .error (.truncated (instrLength i))
      else .ok (i, bs.drop (instrLength i))

/-! ### The encoder, from the formats of R51 to R53 and the codes of R59 -/

/-- The function code of an instruction (R59). -/
def instrFc : Instr → Byte
  | .rc _ _ => Config.fcReadCoils
  | .rdi _ _ => Config.fcReadDinputs
  | .rhr _ _ => Config.fcReadHregs
  | .rir _ _ => Config.fcReadIregs
  | .wsc _ _ => Config.fcWriteCoil
  | .wsr _ _ => Config.fcWriteHreg
  | .wmc _ _ _ _ => Config.fcWriteCoils
  | .wmr _ _ _ _ => Config.fcWriteHregs

/-- Formats RD and WS (R51, R52), and the first five bytes of WM (R53). -/
def encodeFields (fc : Byte) (field1 field2 : Word) : List Byte :=
  fc :: (be16Bytes field1 ++ be16Bytes field2)

/-- The bytes of an instruction, byte 0 first (R51 to R53). -/
def encode : Instr → List Byte
  | .rc start count => encodeFields Config.fcReadCoils start count
  | .rdi start count => encodeFields Config.fcReadDinputs start count
  | .rhr start count => encodeFields Config.fcReadHregs start count
  | .rir start count => encodeFields Config.fcReadIregs start count
  | .wsc off value => encodeFields Config.fcWriteCoil off value
  | .wsr off value => encodeFields Config.fcWriteHreg off value
  | .wmc start count bc payload => encodeFields Config.fcWriteCoils start count ++ bc :: payload
  | .wmr start count bc payload => encodeFields Config.fcWriteHregs start count ++ bc :: payload

/-! ### The host's view of a table row -/

/-- Byte `k` of a table word, whose bit 0 is the least significant bit of byte 0; bits from `nbits` on
are 0. -/
def tableByte (nbits w k : Nat) : Byte := BitVec.ofNat 8 (w % 2 ^ nbits / 256 ^ k)

/-- The instruction the decoder reads from a table word of `nbits` bits. -/
def decodeTableWord (nbits w : Nat) : Option Instr := decodeAt (tableByte nbits w)

/-- A table word as a PDU: exactly the instruction's bytes, or the word's own bytes where it holds no
instruction. -/
def tablePdu (nbits w : Nat) : List Byte :=
  match decodeTableWord nbits w with
  | some i => (List.range (instrLength i)).map (tableByte nbits w)
  | none => (List.range ((nbits + 7) / 8)).map (tableByte nbits w)

end Sys2Proof
end

