-- ==== Sys2Proof/Machine/State.lean ====
section
/-! DEFINITION. The state of the PDU engine (10_state.md), its ports and the environment's part of a
run, all plain data; the reasons a step can stop; and the state after reset (R24). -/

namespace Sys2Proof.Machine

/-- A byte space (R30, R32, R33) as a list of cells in one canonical form (`Memory.wf`, Ops.lean). -/
abbrev Memory := List Host.Cell

/-- One Register Store entry (R10). -/
structure Entry where
  /-- Flat address, set at creation and never changed. -/
  address : Addr
  /-- The 16-bit value; the only field that changes after creation. -/
  value : Word
  /-- The entry has a hook. -/
  hookEn : Bool
  /-- Which hook (`HOOK_ID_W` bits); meaningful only when `hookEn`. -/
  hookId : HookId
  deriving DecidableEq, Repr

/-- `phase` (R15). -/
inductive Phase where
  /-- `Idle`: ready to accept a PDU. -/
  | idle
  /-- `Processing`: building a response. -/
  | processing
  deriving DecidableEq, Repr

/-- `reply_mode` (R19). -/
inductive ReplyMode where
  /-- `Suppressed`: transmit nothing; the reset value, never written by the engine (R124). -/
  | suppressed
  /-- `Echo`: retransmit the request (R120). -/
  | echo
  /-- `Normal`: transmit the response buffer (R119, R121). -/
  | normal
  deriving DecidableEq, Repr

/-- The four exceptions (R125). -/
inductive Exc where
  /-- `IllegalFunction`: the function code is not in the dispatch table (R126). -/
  | illegalFunction
  /-- `IllegalAddress`: a checked address is not in the store (R127). -/
  | illegalAddress
  /-- `IllegalValue`: the count, value or byte count fails its check (R128). -/
  | illegalValue
  /-- `SlaveFailure`: the response does not fit, or a single write reads back wrong (R129). -/
  | slaveFailure
  deriving DecidableEq, Repr

/-- What the engine drives on the hook port for one call (R26, R74). -/
structure HookCall where
  hookId : HookId
  address : Addr
  proposed : Word
  src : Byte
  deriving DecidableEq, Repr

/-- An answered hook call: what was driven and the `stored` value answered (R74). -/
structure HookEvent where
  call : HookCall
  stored : Word
  deriving DecidableEq, Repr

/-- What the hook environment does at one call (R74, R149). -/
inductive HookReply where
  /-- It answers this value. -/
  | answer (stored : Word)
  /-- It never answers (U2): the engine waits for ever. -/
  | never
  deriving DecidableEq, Repr

/-- An operation on the configuration port (R26, R79 to R84). -/
inductive CfgOp where
  /-- `cfg_add` (R80). The port carries the low `HOOK_ID_W` bits of `hookId` (log 27). -/
  | add (kind : Kind) (off init : Word) (hookEn : Bool) (hookId : HookId)
  /-- `cfg_read` (R81). -/
  | read (kind : Kind) (off : Word)
  /-- `cfg_write` (R82). -/
  | write (kind : Kind) (off value : Word)
  /-- `cfg_enum` (R84). -/
  | enum (i : Nat)
  deriving DecidableEq, Repr

/-- An answer of the configuration port (R26). -/
inductive CfgResult where
  /-- `ok` (R80, R82). -/
  | ok
  /-- `full` (R83): never an exception (R138). -/
  | full
  /-- `absent` (R82): never an exception (R138). -/
  | absent
  /-- The value read (R81). -/
  | value (v : Word)
  /-- The entry enumerated (R84). -/
  | entry (e : Entry)
  /-- `none`: the index is not below the store count (R84). -/
  | noEntry
  deriving DecidableEq, Repr

/-- One move of an agent outside the engine (R7, R26). -/
inductive Input where
  /-- The transport presents a PDU on `pdu_in`: `req_len` is the number of bytes (R85). -/
  | pdu (bytes : List Byte)
  /-- The configuration agent issues an operation (R79). -/
  | cfg (op : CfgOp)
  /-- `reset` is asserted with the `HREG_ONLY` strap at this level (R145). -/
  | reset (strap : Bool)
  deriving DecidableEq, Repr

/-- The machine. The fields down to `hregOnly` are the spec's state, `params` its parameters, the next
two are its ports, and the rest is the model's own (INVENTORY.md, State). The working values of
a transaction (R20) are not kept after it and are arguments of the handlers. -/
structure State where
  /-- The Register Store `E[0], E[1], ...` in insertion order (R11); `n` is its length. -/
  store : List Entry
  /-- The sequencing state (R15). -/
  phase : Phase
  /-- The request buffer (R17). It lists nothing at or beyond `req_len` once a PDU is accepted (DESIGN CHOICE,
  log 29). -/
  req : Memory
  /-- `req_len` (R17), at most `REQ_CAP`. -/
  reqLen : Nat
  /-- The response buffer (R18). Bytes at or beyond `resp_len` keep what was last written there (DESIGN
  CHOICE, log 28). -/
  resp : Memory
  /-- `resp_len` (R18), at most `RESP_CAP`. -/
  respLen : Nat
  /-- The reply-mode register (R19). -/
  replyMode : ReplyMode
  /-- `HREG_ONLY` (R22), sampled from its strap at reset. -/
  hregOnly : Bool
  /-- The parameters of R5. No step writes them (log 11). -/
  params : Params
  /-- The `cfg` port's answer to the last accepted operation; `none` before one is given (log 16). -/
  cfgOut : Option CfgResult
  /-- The `hook` port: the call that is waiting for an answer that never comes (R149). -/
  hookWait : Option HookCall
  /-- Model's own: the hook calls answered so far, oldest first (log 24). -/
  hookTrace : List HookEvent
  /-- Model's own: what the hook environment does at its next calls; beyond its end every call is
  answered with a free value (log 4). -/
  hookScript : List HookReply
  /-- Model's own: the moves of the outside agents still to come, in the order they are taken
  (R45(d); log 7). -/
  inputs : List Input
  /-- Model's own: PDUs accepted so far, the draw counter of `Config.freeReqByte` (log 3). -/
  pduDraws : Nat
  /-- Model's own: free hook answers drawn so far, the counter of `Config.freeHookAnswer` (log 4). -/
  hookDraws : Nat
  deriving DecidableEq, Repr

/-- Reasons a step can stop with a fault: none. "There is no fault and no refusal on the PDU path"
(93_implementation_defined.md; R94: no fault state). -/
inductive Fault where
  deriving DecidableEq, Repr

/-- Reasons a step can be refused. None is reached by a PDU the transport can present. -/
inductive Refusal where
  /-- An instruction without a meaning yet, raised by `exec`'s arm of that name only. Safe. No arm
  raises it now. -/
  | notModelled (mnemonic : String)
  /-- `exec` was given a term that is the decoding of no PDU (`Instr.wellFormed` is false); raised by
  the two multi-write meanings. Safe: `step` only runs decoded instructions, all well-formed. -/
  | illFormedInstr
  /-- The environment's script presents a PDU longer than the request buffer (`req_len <= REQ_CAP`,
  R17); raised by `step`. Safe: the transport has no such move. -/
  | pduExceedsReqCap
  deriving DecidableEq, Repr

/-- The state after reset (R24): empty store, `Idle`, `Suppressed`, lengths 0, the strap's value. What
R24 leaves unspecified, and the model's own fields, are named in log 8. -/
def State.reset : State where
  store := []
  phase := .idle
  req := []
  reqLen := 0
  resp := []
  respLen := 0
  replyMode := .suppressed
  hregOnly := Config.hregOnly
  params := Config.params
  cfgOut := none
  hookWait := none
  hookTrace := []
  hookScript := []
  inputs := []
  pduDraws := 0
  hookDraws := 0

end Sys2Proof.Machine
end

