-- ==== Sys2Proof/Machine/Ops.lean ====
section
/-! DEFINITION. The named operations over the state: byte spaces, the Register Store and its write
path with hooks (R70 to R74), the Address-Space Mapper (R75), the Response Encoder (R117 to R122), and
the start and end of a transaction (R85, R92), which is also what an exception returns to (R137). -/

namespace Sys2Proof.Machine

/-! ### Byte spaces (R30 to R34) -/

/-- What an unlisted address of a byte space reads as (DESIGN CHOICE, log 2). -/
def unlistedByte : Byte := 0x00#8

/-- The byte at an address. -/
def Memory.read : Memory → Nat → Byte
  | [], _ => unlistedByte
  | (b, v) :: rest, a => if b = a then v else Memory.read rest a

/-- Put a cell before the first one with a higher address. -/
def Memory.insert : Memory → Nat → Byte → Memory
  | [], a, v => [(a, v)]
  | (b, w) :: rest, a, v =>
    if a < b then (a, v) :: (b, w) :: rest else (b, w) :: Memory.insert rest a v

/-- Write one byte: the old cell goes, and the new one is listed unless it is what an unlisted address
reads as. -/
def Memory.write (m : Memory) (a : Nat) (v : Byte) : Memory :=
  let others : Memory := m.filter (fun c => c.1 != a)
  if v = unlistedByte then others else Memory.insert others a v

/-- Write bytes at `i, i+1, ...`, in ascending order, each once (R33, R119). -/
def Memory.writeBytes : Memory → Nat → List Byte → Memory
  | m, _, [] => m
  | m, i, b :: bs => Memory.writeBytes (m.write i b) (i + 1) bs

/-- The canonical form: addresses strictly rising, no cell equal to what an unlisted address reads as. -/
abbrev Memory.wf (m : Memory) : Prop :=
  m.Pairwise (fun c d => c.1 < d.1) ∧ ∀ c ∈ m, c.2 ≠ unlistedByte

/-! ### The request buffer (R17, R32, R57) -/

/-- `req[i]`: below `req_len` the transport's byte, beyond it an arbitrary one (R17, U3). -/
def State.reqByte (s : State) (i : Nat) : Byte :=
  if i < s.reqLen then s.req.read i else Config.freeReqByte s.pduDraws i

/-! ### The Register Store (R70 to R73) -/

/-- `find(a)` (R71): the index of the first entry with this address. -/
def find : List Entry → Addr → Option Nat
  | [], _ => none
  | e :: es, a => if e.address = a then some 0 else (find es a).map (· + 1)

/-- The first entry with this address: the one every lookup means (R12, R78). -/
def lookup (es : List Entry) (a : Addr) : Option Entry := (find es a).bind (fun i => es[i]?)

/-- The value a store holds at an address (R72, R39): that of the first entry with it, `0x0000` if there
is none. -/
def valueAt (es : List Entry) (a : Addr) : Word :=
  match lookup es a with
  | none => 0x0000#16
  | some e => e.value

/-- `x[a]` (R72). -/
def State.x (s : State) (a : Addr) : Word := valueAt s.store a

/-- `E[i].value <- v` (R73): no other field and no other entry changes. -/
def setValueAt : List Entry → Nat → Word → List Entry
  | [], _, _ => []
  | e :: es, 0, v => { e with value := v } :: es
  | e :: es, i + 1, v => e :: setValueAt es i v

/-- `register(a, init, hook_en, hook_id)` (R70): append at index `n`, unless the store is full (R83).
No hook is called for the initial value (D25). -/
def State.register (s : State) (a : Addr) (init : Word) (hookEn : Bool) (hookId : HookId) :
    CfgResult × State :=
  if s.params.storeCap = some s.store.length then (.full, s)
  else (.ok, { s with store := s.store ++ [⟨a, init, hookEn, hookId⟩] })

/-! ### The hook port and the write path (R73, R74) -/

/-- `Hook(id, a, v, src)` (R74): one call on the hook port. `some v` is the environment's answer:
scripted, or free where the script has ended. `none` is no answer ever: the call stays on the port
(R149). -/
def State.callHook (s : State) (c : HookCall) : Option Word × State :=
  match s.hookScript with
  | .answer v :: rest => (some v, { s with hookScript := rest, hookTrace := s.hookTrace ++ [⟨c, v⟩] })
  | .never :: rest => (none, { s with hookScript := rest, hookWait := some c })
  | [] =>
    let v := Config.freeHookAnswer s.hookDraws c.hookId c.address c.proposed c.src
    (some v, { s with hookDraws := s.hookDraws + 1, hookTrace := s.hookTrace ++ [⟨c, v⟩] })

/-- What a write reports. -/
inductive WriteStatus where
  /-- `ok`: the register exists and holds what the write path decided (R73). -/
  | ok
  /-- `absent`: there is no such register; nothing was written, no hook called (R39, R73). -/
  | absent
  /-- The hook has been called and does not answer (R149): nothing was written. -/
  | waiting
  deriving DecidableEq, Repr

/-- `StoreWrite(a, v, src)` (R73). -/
def State.storeWrite (s : State) (a : Addr) (v : Word) (src : Byte) : WriteStatus × State :=
  match find s.store a, lookup s.store a with
  | some i, some e =>
    if e.hookEn then
      match s.callHook ⟨e.hookId, a, v, src⟩ with
      | (some stored, t) => (.ok, { t with store := setValueAt t.store i stored })
      | (none, t) => (.waiting, t)
    else (.ok, { s with store := setValueAt s.store i v })
  | _, _ => (.absent, s)

/-! ### The Address-Space Mapper (R75) -/

/-- The flat address of `(kind, off)` with this machine's `ADDR_W` (R40). -/
abbrev State.addrOf (s : State) (kind : Kind) (off : Nat) : Addr := flat s.params.addrW kind off

/-- `KindExists(kind, off)`. -/
def State.kindExists (s : State) (kind : Kind) (off : Nat) : Bool :=
  (find s.store (s.addrOf kind off)).isSome

/-- `KindRead(kind, off)`. -/
def State.kindRead (s : State) (kind : Kind) (off : Nat) : Word := s.x (s.addrOf kind off)

/-- `KindWrite(kind, off, v, src)`. -/
def State.kindWrite (s : State) (kind : Kind) (off : Nat) (v : Word) (src : Byte) :
    WriteStatus × State :=
  s.storeWrite (s.addrOf kind off) v src

/-- Every address of the range exists: step (b) of a multi-write (R112, R127). -/
def State.rangeExists (s : State) (kind : Kind) (start count : Nat) : Bool :=
  (List.range count).all (fun k => s.kindExists kind (start + k))

/-- The writes of a multi-write, in ascending `k`, each complete before the next (R45(b), R110,
R111); the first that waits for its hook is the last (R149). -/
def State.writeItems (kind : Kind) (start : Nat) (src : Byte) :
    List Word → Nat → State → WriteStatus × State
  | [], _, s => (.ok, s)
  | v :: vs, k, s =>
    match s.kindWrite kind (start + k) v src with
    | (.ok, t) => State.writeItems kind start src vs (k + 1) t
    | (st, t) => (st, t)

/-! ### The Response Encoder (R117 to R122) -/

/-- The code of an exception (R125). -/
def excCode : Exc → Byte
  | .illegalFunction => Config.exIllegalFunction
  | .illegalAddress => Config.exIllegalAddress
  | .illegalValue => Config.exIllegalValue
  | .slaveFailure => Config.exSlaveFailure

/-- Taking an exception, `raise <Exception>(fc)` (R121, R134): the two bytes of format EX, their
length, mode `Normal`, and nothing else. The handler ends with it. -/
def State.raise (s : State) (exc : Exc) (fc : Byte) : State :=
  { s with resp := s.resp.writeBytes 0 (formatEX fc (excCode exc)), respLen := 2, replyMode := .normal }

/-- `Alloc(L)` (R118), then the rest of the handler: `SlaveFailure` when the response does not fit. -/
def State.alloc (s : State) (fc : Byte) (length : Nat) (rest : State → State) : State :=
  if s.params.respCap < length then s.raise .slaveFailure fc
  else rest { s with respLen := length }

/-- The normal shape after `Alloc` (R119): every byte of the response once, then mode `Normal`. -/
def State.respond (s : State) (bytes : List Byte) : State :=
  { s with resp := s.resp.writeBytes 0 bytes, replyMode := .normal }

/-- The echo shape (R120): the mode and nothing else. -/
def State.echo (s : State) : State := { s with replyMode := .echo }

/-! ### Start and end of a transaction -/

/-- Acceptance of a PDU (R85): the transport's bytes stand in the request buffer, `phase` is
`Processing`, and the previous response is dead. `reply_mode` keeps its value. The bytes of the response
buffer, open in the spec from here on (R18, U4), stay as they were (DESIGN CHOICE, log 28). What an earlier,
longer PDU wrote at or beyond the new `req_len`, open too (R17), is cleared (DESIGN CHOICE, log 29); no
handler reads it (`State.reqByte`). -/
def State.acceptPdu (s : State) (bytes : List Byte) (rest : List Input) : State :=
  { s with
    req := Memory.writeBytes [] 0 bytes
    reqLen := bytes.length
    phase := .processing
    respLen := 0
    inputs := rest
    pduDraws := s.pduDraws + 1 }

/-- End of a transaction (R92), normal or by exception (R134, R137): `phase <- Idle` and nothing else.
A transaction that waits for its hook has not ended (R149). -/
def State.endTransaction (s : State) : State :=
  if s.hookWait.isSome then s else { s with phase := .idle }

/-- The guard of R87 for the five function codes that `HREG_ONLY` takes out of the dispatch table
(R22, R62, R89): they are then unknown function codes. -/
def State.dispatched (s : State) (fc : Byte) (handler : State → State) : State :=
  if s.hregOnly then s.raise .illegalFunction fc else handler s

end Sys2Proof.Machine
end

