-- ==== Sys2Proof/Machine/CfgPort.lean ====
section
/-! DEFINITION. The configuration port (R79 to R84) and `reset` (R145): the moves of the outside agents
that are not PDUs. -/

namespace Sys2Proof.Machine

/-- `cfg_add` (R80). -/
def cfgAdd (kind : Kind) (off init : Word) (hookEn : Bool) (hookId : HookId) (s : State) : State :=
  match s.register (s.addrOf kind off.toNat) init hookEn (hookId % 2 ^ s.params.hookIdW) with
  | (r, t) => { t with cfgOut := some r }

/-- `cfg_read` (R81). -/
def cfgRead (kind : Kind) (off : Word) (s : State) : State :=
  { s with cfgOut := some (.value (s.kindRead kind off.toNat)) }

/-- `cfg_write` (R82): the write path of a PDU, hook included, with the source tag `SRC_LOCAL`. While
its hook does not answer there is no result. -/
def cfgWrite (kind : Kind) (off value : Word) (s : State) : State :=
  match s.kindWrite kind off.toNat value s.params.srcLocal with
  | (.ok, t) => { t with cfgOut := some .ok }
  | (.absent, t) => { t with cfgOut := some .absent }
  | (.waiting, t) => { t with cfgOut := none }

/-- `cfg_enum` (R84). -/
def cfgEnum (i : Nat) (s : State) : State :=
  { s with cfgOut := some (match s.store[i]? with
    | some e => .entry e
    | none => .noEntry) }

/-- One operation of the configuration port, run to completion (R79). -/
def cfgExec : CfgOp → State → State
  | .add kind off init hookEn hookId, s => cfgAdd kind off init hookEn hookId s
  | .read kind off, s => cfgRead kind off s
  | .write kind off value, s => cfgWrite kind off value s
  | .enum i, s => cfgEnum i s

/-- `reset` (R145): the spec's state takes the values of R24 with `HREG_ONLY` sampled from the strap,
and a waiting hook call gets no further attention. The parameters, the environment's moves to come and
the counters are no state of the block and stay (log 15). -/
def State.resetBy (s : State) (strap : Bool) : State :=
  { State.reset with
    hregOnly := strap
    params := s.params
    hookTrace := s.hookTrace
    hookScript := s.hookScript
    inputs := s.inputs
    pduDraws := s.pduDraws
    hookDraws := s.hookDraws }

end Sys2Proof.Machine
end

