-- ==== Sys2Proof/Machine/ReadBits.lean ====
section
/-! DEFINITION. The bit read functions (43_read_bits.md). -/

namespace Sys2Proof.Machine

/-- `ReadBits(fc, kind, start, count)` (R103) with the packer of R100: only the start address must
exist (R104). -/
def readBits (fc : Byte) (kind : Kind) (start count : Word) (s : State) : State :=
  if !bitCountOk count then s.raise .illegalValue fc
  else if !s.kindExists kind start.toNat then s.raise .illegalAddress fc
  else s.alloc fc (2 + ceilDiv8 count.toNat) fun t =>
    t.respond (formatRB fc (fun k => bitOf (t.kindRead kind (start.toNat + k))) count.toNat)

/-- `RC start, count` (R101). -/
def execRc (start count : Word) (s : State) : Host.Outcome State Fault Refusal :=
  .next (s.dispatched Config.fcReadCoils (readBits Config.fcReadCoils .coil start count))

/-- `RDI start, count` (R102). -/
def execRdi (start count : Word) (s : State) : Host.Outcome State Fault Refusal :=
  .next (s.dispatched Config.fcReadDinputs (readBits Config.fcReadDinputs .dinput start count))

end Sys2Proof.Machine
end

