-- ==== Sys2Proof/Machine/ReadRegisters.lean ====
section
/-! DEFINITION. The register read functions (42_read_registers.md). -/

namespace Sys2Proof.Machine

/-- `ReadRegs(fc, kind, start, count)` (R95): only the start address must exist (R98). -/
def readRegs (fc : Byte) (kind : Kind) (start count : Word) (s : State) : State :=
  if !regCountOk count then s.raise .illegalValue fc
  else if !s.kindExists kind start.toNat then s.raise .illegalAddress fc
  else s.alloc fc (2 + 2 * count.toNat) fun t =>
    t.respond (formatRR fc (fun k => t.kindRead kind (start.toNat + k)) count.toNat)

/-- `RHR start, count` (R96). -/
def execRhr (start count : Word) (s : State) : Host.Outcome State Fault Refusal :=
  .next (readRegs Config.fcReadHregs .hreg start count s)

/-- `RIR start, count` (R97). -/
def execRir (start count : Word) (s : State) : Host.Outcome State Fault Refusal :=
  .next (s.dispatched Config.fcReadIregs (readRegs Config.fcReadIregs .ireg start count))

end Sys2Proof.Machine
end

