-- ==== Sys2Proof/Machine/WriteMultiple.lean ====
section
/-! DEFINITION. The multiple write functions (45_write_multiple.md). -/

namespace Sys2Proof.Machine

/-- Steps (a) to (d) shared by `WMR` and `WMC` (R110, R111): the value check, the whole range before
any write (R112), `Alloc(5)`, the writes without read-back (R114), and the `WR` response (R115).
`values` are the words proposed, in ascending `k`. -/
def writeMultiple (fc : Byte) (kind : Kind) (start count : Word) (valueOk : Bool) (values : List Word)
    (s : State) : State :=
  if !valueOk then s.raise .illegalValue fc
  else if !s.rangeExists kind start.toNat count.toNat then s.raise .illegalAddress fc
  else s.alloc fc 5 fun t =>
    match State.writeItems kind start.toNat fc values 0 t with
    | (.ok, u) => u.respond (formatWR fc start count)
    | (.waiting, u) => u
    | (.absent, u) => u.raise .illegalAddress fc   -- never: the range exists (R112)

/-- `WMR start, count, bc, payload` (R110). -/
def execWmr (start count : Word) (bc : Byte) (payload : List Byte) (s : State) :
    Host.Outcome State Fault Refusal :=
  if (Instr.wmr start count bc payload).wellFormed then
    .next (writeMultiple Config.fcWriteHregs .hreg start count (wmrValueOk count bc)
      ((List.range count.toNat).map (payloadWord payload)) s)
  else .refused .illFormedInstr

/-- `WMC start, count, bc, payload` (R111), each bit proposed as `0xFF00` or `0x0000` (R113). -/
def execWmc (start count : Word) (bc : Byte) (payload : List Byte) (s : State) :
    Host.Outcome State Fault Refusal :=
  if (Instr.wmc start count bc payload).wellFormed then
    .next (s.dispatched Config.fcWriteCoils
      (writeMultiple Config.fcWriteCoils .coil start count (wmcValueOk count bc)
        ((List.range count.toNat).map (fun k => coilWord (payloadBit payload k)))))
  else .refused .illFormedInstr

end Sys2Proof.Machine
end

