-- ==== Sys2Proof/Machine/WriteSingle.lean ====
section
/-! DEFINITION. The single write functions (44_write_single.md). -/

namespace Sys2Proof.Machine

/-- Steps (b) to (d) of `WSR` and `WSC` (R105, R106): write, read back all 16 bits (R107, D8), echo.
A mismatch is not undone. A hook that never answers leaves the transaction there (R149). -/
def writeSingle (fc : Byte) (kind : Kind) (off value : Word) (s : State) : State :=
  match s.kindWrite kind off.toNat value fc with
  | (.absent, t) => t.raise .illegalAddress fc
  | (.waiting, t) => t
  | (.ok, t) => if t.kindRead kind off.toNat = value then t.echo else t.raise .slaveFailure fc

/-- `WSR off, value` (R105). -/
def execWsr (off value : Word) (s : State) : Host.Outcome State Fault Refusal :=
  .next (writeSingle Config.fcWriteHreg .hreg off value s)

/-- `WSC off, value` (R106): the value check first, then the write. -/
def execWsc (off value : Word) (s : State) : Host.Outcome State Fault Refusal :=
  .next (s.dispatched Config.fcWriteCoil fun t =>
    if !coilValueOk value then t.raise .illegalValue Config.fcWriteCoil
    else writeSingle Config.fcWriteCoil .coil off value t)

end Sys2Proof.Machine
end

