-- ==== Sys2Proof/Machine/Dispatch.lean ====
section
/-! DEFINITION. The handler of each function code (R87). A function code outside the table is no
instruction: Transaction.lean answers it (R88). -/

namespace Sys2Proof.Machine

def exec (i : Instr) (s : State) : Host.Outcome State Fault Refusal :=
  match i with
  | .rc start count => Sys2Proof.Machine.execRc start count s
  | .rdi start count => Sys2Proof.Machine.execRdi start count s
  | .rhr start count => Sys2Proof.Machine.execRhr start count s
  | .rir start count => Sys2Proof.Machine.execRir start count s
  | .wsc off value => Sys2Proof.Machine.execWsc off value s
  | .wsr off value => Sys2Proof.Machine.execWsr off value s
  | .wmc start count bc payload => Sys2Proof.Machine.execWmc start count bc payload s
  | .wmr start count bc payload => Sys2Proof.Machine.execWmr start count bc payload s

end Sys2Proof.Machine
end

