-- ==== Sys2Proof/Machine/Flags.lean ====
section
/-! DEFINITION. Status outputs. The block has no condition codes (R25): what a transaction leaves
behind is `reply_mode`, `resp_len` and `resp`, read by the transport (R16, R19, R123). -/

namespace Sys2Proof.Machine

/-- `busy` (R16). -/
def State.busy (s : State) : Bool := s.phase == .processing

/-- The 2-bit port encoding of the reply mode (R19, D11); `0b00` is never driven. -/
def replyModePort : ReplyMode → BitVec 2
  | .suppressed => 0b01#2
  | .echo => 0b10#2
  | .normal => 0b11#2

/-- `resp[0 .. resp_len-1]` (R18). -/
def State.respBytes (s : State) : List Byte := (List.range s.respLen).map s.resp.read

/-- `req[0 .. req_len-1]` (R17). -/
def State.reqBytes (s : State) : List Byte := (List.range s.reqLen).map s.req.read

/-- `Reply` (R123): what the transport transmits. -/
def State.reply (s : State) : List Byte :=
  match s.replyMode with
  | .suppressed => []
  | .echo => s.reqBytes
  | .normal => s.respBytes

/-- The engine accepts a PDU or a configuration operation: `phase = Idle`, and no `cfg_write` is
waiting for its hook (R16, R26, R79, R148). -/
def State.ready (s : State) : Bool := s.phase == .idle && s.hookWait.isNone

end Sys2Proof.Machine
end

