-- ==== Sys2Proof/Machine/Transaction.lean ====
section
/-! DEFINITION. One transaction, `ProcessPDU` (R90), and what each move of the outside agents does. -/

namespace Sys2Proof.Machine

/-- What follows a handler (R92). -/
def finish : Host.Outcome State Fault Refusal → Host.Outcome State Fault Refusal
  | .next s => .next s.endTransaction
  | .fault r => .fault r
  | .refused r => .refused r

/-- Decode and dispatch on an accepted PDU (R86, R87): the selected handler, or `IllegalFunction` for
an unknown function code (R88). -/
def dispatch (s : State) : Host.Outcome State Fault Refusal :=
  match decodeAt s.reqByte with
  | some i => exec i s
  | none => .next (s.raise .illegalFunction (s.reqByte 0))

/-- `ProcessPDU` (R90), for a PDU that fits the request buffer. -/
def processPdu (s : State) (bytes : List Byte) (rest : List Input) :
    Host.Outcome State Fault Refusal :=
  if bytes.length ≤ s.params.reqCap then finish (dispatch (s.acceptPdu bytes rest))
  else .refused .pduExceedsReqCap

/-- The next move of the outside agents. `reset` is taken at any time (R145). A PDU or a configuration
operation is taken when the engine is ready; otherwise the agent has no move, and the engine, waiting
for its hook, stays as it is (R16, R47, R149, U8). With no move to come the engine waits in `Idle`. -/
def takeInput (s : State) : List Input → Host.Outcome State Fault Refusal
  | [] => .next s
  | .reset strap :: rest => .next (({ s with inputs := rest } : State).resetBy strap)
  | .cfg op :: rest => if s.ready then .next (cfgExec op { s with inputs := rest }) else .next s
  | .pdu bytes :: rest => if s.ready then processPdu s bytes rest else .next s

end Sys2Proof.Machine
end

