-- ==== Sys2Proof/Machine/Step.lean ====
section
/-! DEFINITION. One step: one whole transaction or one whole configuration operation, each atomic (R47,
R90), or a reset. -/

namespace Sys2Proof.Machine

/-- One step of the machine. -/
def step (s : State) : Host.Outcome State Fault Refusal := takeInput s s.inputs

/-- `s` with a table word presented by the transport as the next PDU to an engine that is ready (log 7). -/
def State.withFetchWord (s : State) (nbits w : Nat) : State :=
  { s with inputs := .pdu (tablePdu nbits w) :: s.inputs, phase := .idle, hookWait := none }

end Sys2Proof.Machine
end

