-- ==== Sys2Proof/Safety.lean ====
section
/-! DEFINITION. What a safe run keeps (`State.Inv`), and the terms the statements use: what a lookup
finds, what changed in the store, and what a reply holds. Each is written from the spec's words, apart
from the operations of the machine. -/

namespace Sys2Proof.Machine

/-! ### The invariant -/

/-- The byte spaces (R17, R18, R30, log 2): canonical, inside their capacities, and with lengths inside
them. With this hardware's capacities both lengths fit 8 bits (R21). -/
structure State.BuffersOk (s : State) : Prop where
  req_wf : Memory.wf s.req
  resp_wf : Memory.wf s.resp
  req_space : ∀ c ∈ s.req, c.1 < s.params.reqCap
  resp_space : ∀ c ∈ s.resp, c.1 < s.params.respCap
  req_len : s.reqLen ≤ s.params.reqCap
  resp_len : s.respLen ≤ s.params.respCap

/-- Every address in the store is one that some kind and 16-bit offset name (R70), every hook identifier
has `HOOK_ID_W` bits (R10), and the store is within its capacity (R11). -/
structure State.StoreOk (s : State) : Prop where
  addresses : ∀ e ∈ s.store, ∃ (kind : Kind) (off : Word), e.address = s.addrOf kind off.toNat
  hook_ids : ∀ e ∈ s.store, e.hookId < 2 ^ s.params.hookIdW
  capacity : ∀ cap, s.params.storeCap = some cap → s.store.length ≤ cap

/-- Between steps the engine is in `Processing` only while it waits for a hook (R92, R149). -/
def State.PhaseOk (s : State) : Prop := s.phase = .processing → s.hookWait ≠ none

/-- In `Idle` the reply is nothing, the request, or a response of 2 to 252 bytes (R94, R117, R124). -/
def State.ReplyOk (s : State) : Prop :=
  s.phase = .idle →
    (s.replyMode = .suppressed ∧ s.respLen = 0) ∨ (s.replyMode = .echo ∧ s.respLen = 0) ∨
      (s.replyMode = .normal ∧ 2 ≤ s.respLen ∧ s.respLen ≤ 252)

/-- The invariant every step keeps. The parameters meet their constraints (R5). -/
structure State.Inv (s : State) : Prop where
  params : s.params.Ok
  buffers : s.BuffersOk
  store : s.StoreOk
  phase : s.PhaseOk
  reply : s.ReplyOk

/-! ### The store -/

/-- Some entry has this address: the address exists (R31). -/
def Present (es : List Entry) (a : Addr) : Prop := ∃ e ∈ es, e.address = a

/-- Entry `i` is the first with this address (R12, R71). -/
def FirstAt (es : List Entry) (a : Addr) (i : Nat) (e : Entry) : Prop :=
  es[i]? = some e ∧ e.address = a ∧ ∀ j d, j < i → es[j]? = some d → d.address ≠ a

/-- The value of entry `i` is now `v`; its other fields, every other entry and their order are as they
were (R10, R73). -/
def OneValueChanged (old new : List Entry) (i : Nat) (v : Word) : Prop :=
  new.length = old.length ∧
    ∀ j e, old[j]? = some e → new[j]? = some (if j = i then { e with value := v } else e)

/-- The fields of an entry that never change after its creation (R10). -/
def Entry.fixedPart (e : Entry) : Addr × Bool × HookId := (e.address, e.hookEn, e.hookId)

/-! ### Replies -/

/-- Nothing changed but the reply: `resp`, `resp_len` and `reply_mode`. -/
def OnlyReplyChanged (s t : State) : Prop :=
  t = { s with resp := t.resp, respLen := t.respLen, replyMode := t.replyMode }

/-- The response bytes from index `n` on are as they were. Where `n` is the length of the response the spec
leaves them open (R18, U4), and this is the model's choice (DESIGN CHOICE, log 28). -/
abbrev DeadBytesKept (s t : State) (n : Nat) : Prop := ∀ a, n ≤ a → t.resp.read a = s.resp.read a

/-- Exception `code` for function code `fc` stands in the reply (R121): two bytes and mode `Normal`. -/
def ExceptionReply (s t : State) (fc code : Byte) : Prop :=
  t.replyMode = .normal ∧ t.respLen = 2 ∧
    t.resp.read 0 = fc ||| 0x80#8 ∧ t.resp.read 1 = code ∧
    DeadBytesKept s t 2

/-- The more significant byte of a word (R34), as a number. -/
def upper (v : Word) : Byte := BitVec.ofNat 8 (v.toNat / 256)

/-- The less significant byte of a word (R34), as a number. -/
def lower (v : Word) : Byte := BitVec.ofNat 8 (v.toNat % 256)

/-- A register read response (R54): `2 + 2*count` bytes with the values `v 0, v 1, ...`. -/
def RegisterReply (s t : State) (fc : Byte) (count : Nat) (v : Nat → Word) : Prop :=
  t.replyMode = .normal ∧ t.respLen = 2 + 2 * count ∧
    t.resp.read 0 = fc ∧ t.resp.read 1 = BitVec.ofNat 8 (2 * count) ∧
    (∀ k, k < count → t.resp.read (2 + 2 * k) = upper (v k) ∧ t.resp.read (3 + 2 * k) = lower (v k)) ∧
    DeadBytesKept s t (2 + 2 * count)

/-- A bit read response (R55): `2 + ceil(count/8)` bytes, item `8j + i` in bit `i` of byte `2 + j`,
padding bits 0. -/
def BitReply (s t : State) (fc : Byte) (count : Nat) (bit : Nat → Bool) : Prop :=
  t.replyMode = .normal ∧ t.respLen = 2 + (count + 7) / 8 ∧
    t.resp.read 0 = fc ∧ t.resp.read 1 = BitVec.ofNat 8 ((count + 7) / 8) ∧
    (∀ j i, j < (count + 7) / 8 → i < 8 →
      (t.resp.read (2 + j)).getLsbD i = (decide (8 * j + i < count) && bit (8 * j + i))) ∧
    DeadBytesKept s t (2 + (count + 7) / 8)

/-- A multi-write response (R56): function code, start and count, 5 bytes. -/
def RangeReply (s t : State) (fc : Byte) (start count : Word) : Prop :=
  t.replyMode = .normal ∧ t.respLen = 5 ∧
    t.resp.read 0 = fc ∧ t.resp.read 1 = upper start ∧ t.resp.read 2 = lower start ∧
    t.resp.read 3 = upper count ∧ t.resp.read 4 = lower count ∧
    DeadBytesKept s t 5

/-! ### Hooks -/

/-- The environment answers every hook call (R94, R149). -/
def Answering (s : State) : Prop := ∀ r ∈ s.hookScript, r ≠ HookReply.never

/-- The environment answers these calls, in this order: a script `script` answers first, each call with
its next answer, and from its end on every answer is the free value of its draw (R74; log 4). `script'`
and `draws'` are what is left of the script and the draws counted afterwards. -/
def AnsweredBy (script' : List HookReply) (draws' : Nat) : List HookEvent → List HookReply → Nat → Prop
  | [], script, draws => script' = script ∧ draws' = draws
  | ev :: evs, script, draws =>
    (∃ rest, script = .answer ev.stored :: rest ∧ AnsweredBy script' draws' evs rest draws) ∨
    (script = [] ∧ ev.stored = Config.freeHookAnswer draws ev.call.hookId ev.call.address ev.call.proposed ev.call.src ∧
      AnsweredBy script' draws' evs [] (draws + 1))

/-- The hook port answered these calls between `s` and `t`: they are recorded, their answers are the
environment's, and no call waits that did not wait before. -/
def CallsAnswered (s t : State) (evs : List HookEvent) : Prop :=
  t.hookTrace = s.hookTrace ++ evs ∧ t.hookWait = s.hookWait ∧
    AnsweredBy t.hookScript t.hookDraws evs s.hookScript s.hookDraws

/-- One call was answered with `w`. -/
abbrev CallAnswered (s t : State) (c : HookCall) (w : Word) : Prop := CallsAnswered s t [⟨c, w⟩]

/-- No hook was called. -/
def NoHookCalled (s t : State) : Prop :=
  t.hookTrace = s.hookTrace ∧ t.hookWait = s.hookWait ∧ t.hookScript = s.hookScript ∧
    t.hookDraws = s.hookDraws

/-! ### The value checks of the multi-writes (R67), as the spec's table has them -/

/-- `WMR`: `1 <= count <= 123` and `bc = 2*count`. -/
abbrev WmrLegal (count : Word) (bc : Byte) : Prop :=
  1 ≤ count.toNat ∧ count.toNat ≤ 123 ∧ bc.toNat = 2 * count.toNat

/-- `WMC`: `1 <= count <= 1968` and `bc = ceil(count/8)`. -/
abbrev WmcLegal (count : Word) (bc : Byte) : Prop :=
  1 ≤ count.toNat ∧ count.toNat ≤ 1968 ∧ bc.toNat = (count.toNat + 7) / 8

/-- Register `k` of a multi-write's payload (R58, R110): bytes `2k` (high) and `2k + 1`, as a number. -/
def payloadRegister (payload : List Byte) (k : Nat) : Word :=
  BitVec.ofNat 16 ((payload.getD (2 * k) 0#8).toNat * 256 + (payload.getD (2 * k + 1) 0#8).toNat)

/-- The value coil `k` of a payload is written as (R113): bit `k mod 8` of byte `k div 8`, by division. -/
def payloadCoil (payload : List Byte) (k : Nat) : Word :=
  if (payload.getD (k / 8) 0#8).toNat / 2 ^ (k % 8) % 2 = 1 then 0xFF00#16 else 0x0000#16

/-- Every address of a range exists (R127). -/
def RangePresent (s : State) (kind : Kind) (start count : Nat) : Prop :=
  ∀ k, k < count → Present s.store (s.addrOf kind (start + k))

/-- A range write stored `w k` in the first entry of item `k`; every other entry, a shadowed duplicate
included, is as it was (R110 to R112, R116). -/
def RangeStored (s t : State) (kind : Kind) (start count : Nat) (w : Nat → Word) : Prop :=
  t.store.length = s.store.length ∧
    (∀ k i e, k < count → FirstAt s.store (s.addrOf kind (start + k)) i e →
      t.store[i]? = some { e with value := w k }) ∧
    ∀ j e, s.store[j]? = some e →
      (∀ k, k < count → ¬ FirstAt s.store (s.addrOf kind (start + k)) j e) → t.store[j]? = some e

/-- The hook calls of a range write that proposed `v k` and got `w k` stored: one for each item whose
first entry has a hook, in ascending `k` (R45(b)). -/
def rangeEvents (s : State) (kind : Kind) (start count : Nat) (src : Byte) (v w : Nat → Word) :
    List HookEvent :=
  (List.range count).filterMap fun k =>
    match lookup s.store (s.addrOf kind (start + k)) with
    | some e => if e.hookEn then some ⟨⟨e.hookId, s.addrOf kind (start + k), v k, src⟩, w k⟩ else none
    | none => none

/-- `w` is what a range write of `v` stores, as far as the entries without a hook decide it. -/
def KeepsPlainItems (s : State) (kind : Kind) (start count : Nat) (v w : Nat → Word) : Prop :=
  ∀ k i e, k < count → FirstAt s.store (s.addrOf kind (start + k)) i e → e.hookEn = false → w k = v k

/-- A completed range write through hooks: the calls are made in ascending order, the environment's answers
are stored, and the reply is the normal one whatever they are (R114). Nothing else changed. -/
def RangeWriteDone (s t : State) (fc : Byte) (kind : Kind) (start count : Word) (v : Nat → Word) : Prop :=
  RangeReply s t fc start count ∧
    (∃ w : Nat → Word,
      KeepsPlainItems s kind start.toNat count.toNat v w ∧
      RangeStored s t kind start.toNat count.toNat w ∧
      CallsAnswered s t (rangeEvents s kind start.toNat count.toNat fc v w)) ∧
    t = { s with
      store := t.store, resp := t.resp, respLen := t.respLen, replyMode := t.replyMode,
      hookTrace := t.hookTrace, hookScript := t.hookScript, hookDraws := t.hookDraws }

/-- The environment's script answers `w` to the hooked items below `m` of a range write of `v` and never
answers the next call. -/
def ScriptedThenNever (s : State) (kind : Kind) (start m : Nat) (src : Byte) (v w : Nat → Word)
    (more : List HookReply) : Prop :=
  KeepsPlainItems s kind start m v w ∧
    s.hookScript =
      (rangeEvents s kind start m src v w).map (fun ev => .answer ev.stored) ++ .never :: more

/-- A range write waits at item `m`, whose first entry is `e` (R149): the items below `m` are stored and
their calls recorded, `m` and the items above are as they were, the call for `m` stands on the port, and the
mode is unwritten. That the length then is the 5 of `Alloc(5)` (R118) and the response bytes are as they
were is the model's (DESIGN CHOICE, log 6): the spec leaves these outputs open while busy (R16, U5). -/
def RangeWriteWaits (s t : State) (fc : Byte) (kind : Kind) (start m : Nat) (e : Entry) (v w : Nat → Word)
    (more : List HookReply) : Prop :=
  RangeStored s t kind start m w ∧
    t = { s with
      store := t.store, respLen := 5, hookScript := more,
      hookTrace := s.hookTrace ++ rangeEvents s kind start m fc v w,
      hookWait := some ⟨e.hookId, s.addrOf kind (start + m), v m, fc⟩ }

/-- The outcome of a single write to entry `i` whose hook answered `w` (R107): the answer is kept; the
reply is `Echo` exactly when it is the value requested, and `SlaveFailure` otherwise. Nothing else
changed. -/
def SingleWriteDone (s t : State) (fc : Byte) (a : Addr) (value : Word) (i : Nat) (e : Entry)
    (w : Word) : Prop :=
  OneValueChanged s.store t.store i w ∧ CallAnswered s t ⟨e.hookId, a, value, fc⟩ w ∧
    (w = value → t.replyMode = .echo ∧ t.resp = s.resp ∧ t.respLen = s.respLen) ∧
    (w ≠ value → ExceptionReply s t fc 0x04#8) ∧
    t = { s with
      store := t.store, resp := t.resp, respLen := t.respLen, replyMode := t.replyMode,
      hookTrace := t.hookTrace, hookScript := t.hookScript, hookDraws := t.hookDraws }

/-- A single write to entry `i`, which has no hook: the value is stored, the reply is `Echo`, and
nothing else changed (R105 to R107). -/
def SingleWriteEchoed (s t : State) (value : Word) (i : Nat) : Prop :=
  OneValueChanged s.store t.store i value ∧ t = { s with store := t.store, replyMode := .echo }

end Sys2Proof.Machine
end

