-- ==== Sys2Proof/Certificates/Slice0/Obligations.lean ====
section
/-! DEFINITION. The statements for the provers. The spec fixes from general knowledge the function codes
but `0x01` and `0x03`, and the exception codes `0x03` and `0x04` (decisions D1, D2; log 9): a statement
that prints one of them rests on that. A statement about every state is one about every instantiation of the
parameters (R5; log 11). A statement that rests on another of the spec's own decisions, or
on a choice of the model, names it. The fields of State that only the environment's part of a run needs
(`inputs`, `hookScript`, `hookTrace`, the counters) are the model's own (logs 3, 4, 7, 24). A statement that
keeps the response buffer, as every frame here does, keeps with it the bytes at or beyond `resp_len`, which
the spec leaves open (U4): that is the model's choice (log 28). So is what `resp_len` and `resp` are while
the engine is busy (U5; log 6). -/

open Sys2Proof Sys2Proof.Machine

/-! ### The flat address space -/

/-- R40, R49, for every width `ADDR_W`: the address formula with its four bases; that the `mod` never acts
on a sum the block forms (offset at most 65535 plus an index at most 1999) when the width is 17 or more;
and that with width 16 it does (95_test_vectors.md 2.1). This hardware's width, 17, is the spec's decision
D3 (log 10). -/
def Obligations.FlatAddressIsOffsetPlusBase : Prop :=
  (∀ w off, flat w .coil off = (off + 1) % 2 ^ w ∧ flat w .dinput off = (off + 10001) % 2 ^ w ∧
    flat w .ireg off = (off + 30001) % 2 ^ w ∧ flat w .hreg off = (off + 40001) % 2 ^ w) ∧
  (∀ w off, 17 ≤ w → off ≤ 65535 + 1999 →
    flat w .coil off = off + 1 ∧ flat w .dinput off = off + 10001 ∧
    flat w .ireg off = off + 30001 ∧ flat w .hreg off = off + 40001) ∧
  flat 16 .hreg 25535 = 0

/-- R42, R49, R116: the aliasing table, for every width; and that within one kind distinct sums give
distinct addresses, for every sum when the width is 17 or more (decision D3, log 10) and for sums less than
`2^16` apart, as the items of one range are, when it is 16. -/
def Obligations.KindsAliasAndRangesDoNotWrap : Prop :=
  (∀ w off, 10000 ≤ off →
    flat w .coil off = flat w .dinput (off - 10000) ∧ flat w .ireg off = flat w .hreg (off - 10000)) ∧
  (∀ w off, 20000 ≤ off → flat w .dinput off = flat w .ireg (off - 20000)) ∧
  (∀ w off, 30000 ≤ off →
    flat w .coil off = flat w .ireg (off - 30000) ∧ flat w .dinput off = flat w .hreg (off - 30000)) ∧
  (∀ w off, 40000 ≤ off → flat w .coil off = flat w .hreg (off - 40000)) ∧
  (∀ w kind m n, 17 ≤ w → m ≤ 65535 + 1999 → n ≤ 65535 + 1999 → flat w kind m = flat w kind n → m = n) ∧
  ∀ w kind m n, 16 ≤ w → m < n + 2 ^ 16 → n < m + 2 ^ 16 → flat w kind m = flat w kind n → m = n

/-! ### The Register Store -/

/-- R71. -/
def Obligations.FindReturnsFirstMatch : Prop :=
  ∀ es a, (∀ i, find es a = some i ↔ ∃ e, FirstAt es a i e) ∧ (find es a = none ↔ ¬ Present es a)

/-- R72. -/
def Obligations.RegisterReadIsFirstMatchOrZero : Prop :=
  ∀ (s : State) a, (∀ i e, FirstAt s.store a i e → s.x a = e.value) ∧ (¬ Present s.store a → s.x a = 0x0000#16)

/-- R73, R74, with R149 for a hook that never answers (log 5): the three outcomes of a write. The form of an
answer is the model's (log 4). -/
def Obligations.StoreWriteGoesThroughTheHook : Prop :=
  ∀ (s : State) a v src,
    (¬ Present s.store a → s.storeWrite a v src = (.absent, s)) ∧
    ∀ i e, FirstAt s.store a i e →
      (e.hookEn = false → ∃ t, s.storeWrite a v src = (.ok, t) ∧
        OneValueChanged s.store t.store i v ∧ t = { s with store := t.store }) ∧
      (e.hookEn = true → (∀ rest, s.hookScript ≠ .never :: rest) → ∃ t w, s.storeWrite a v src = (.ok, t) ∧
        OneValueChanged s.store t.store i w ∧ CallAnswered s t ⟨e.hookId, a, v, src⟩ w ∧
        t = { s with store := t.store, hookTrace := t.hookTrace, hookScript := t.hookScript, hookDraws := t.hookDraws }) ∧
      (e.hookEn = true → ∀ rest, s.hookScript = .never :: rest →
        s.storeWrite a v src = (.waiting, { s with hookScript := rest, hookWait := some ⟨e.hookId, a, v, src⟩ }))

/-- R78: the store's three laws. -/
def Obligations.ReadAfterWriteLaws : Prop :=
  ∀ (s : State) a v src,
    (∀ i e, FirstAt s.store a i e → e.hookEn = false →
      (s.storeWrite a v src).1 = .ok ∧ (s.storeWrite a v src).2.x a = v) ∧
    (∀ i e t, FirstAt s.store a i e → e.hookEn = true → s.storeWrite a v src = (.ok, t) →
      ∃ w, t.hookTrace = s.hookTrace ++ [⟨⟨e.hookId, a, v, src⟩, w⟩] ∧ t.x a = w) ∧
    (∀ t b, (s.storeWrite a v src).2 = t → b ≠ a → t.x b = s.x b) ∧
    (¬ Present s.store a → find s.store a = none ∧ s.x a = 0x0000#16 ∧ (s.storeWrite a v src).1 = .absent)

/-! ### Exceptions -/

/-- R125, R134: what taking an exception changes, and the four codes. That the response bytes beyond the
reply stay as they were is the model's choice (log 28). -/
def Obligations.RaiseChangesOnlyTheReply : Prop :=
  (∀ (s : State) exc fc, OnlyReplyChanged s (s.raise exc fc)) ∧
  ∀ (s : State) fc,
    ExceptionReply s (s.raise .illegalFunction fc) fc 0x01#8 ∧
    ExceptionReply s (s.raise .illegalAddress fc) fc 0x02#8 ∧
    ExceptionReply s (s.raise .illegalValue fc) fc 0x03#8 ∧
    ExceptionReply s (s.raise .slaveFailure fc) fc 0x04#8

/-- R88, with R85 and R92 around it: the whole transaction of a PDU whose function code is outside the
dispatch table, the five codes `HREG_ONLY` takes out included (the multi-write among them with a legal
or illegal payload alike). The counter of accepted PDUs is the model's own (log 3). -/
def Obligations.UnknownFunctionIsAnswered : Prop :=
  ∀ (s : State) fc tail rest, s.ready = true → s.inputs = .pdu (fc :: tail) :: rest → tail.length < s.params.reqCap →
    (fc ∉ [0x01#8, 0x02#8, 0x03#8, 0x04#8, 0x05#8, 0x06#8, 0x0F#8, 0x10#8] ∨
      (s.hregOnly = true ∧ fc ∉ [0x03#8, 0x06#8, 0x10#8])) →
    ∃ t, step s = .next t ∧ t.reply = [fc ||| 0x80#8, 0x01#8] ∧ t.replyMode = .normal ∧ t.phase = .idle ∧
      (0x80#8 ≤ fc → t.reply = [fc, 0x01#8]) ∧
      t = { s with
        req := t.req, reqLen := tail.length + 1, resp := t.resp, respLen := 2, replyMode := .normal,
        inputs := rest, pduDraws := s.pduDraws + 1 }

/-! ### Register and bit reads -/

/-- R54, R95 to R98: a register read whose start address exists, and whose response fits, answers, later
absent registers reading as `0x0000`. It changes nothing but the reply. With this hardware's `RESP_CAP` of
252, decision D13 (log 20), the response of every count from 1 to 125 fits. That the response bytes beyond
the reply stay as they were is the model's choice (log 28). -/
def Obligations.RegisterReadsAnswer : Prop :=
  ∀ (s : State) start count, 1 ≤ count.toNat → count.toNat ≤ 125 → 2 + 2 * count.toNat ≤ s.params.respCap →
    (Present s.store (s.addrOf .hreg start.toNat) → ∃ t, exec (.rhr start count) s = .next t ∧
      RegisterReply s t Config.fcReadHregs count.toNat (fun k => s.x (s.addrOf .hreg (start.toNat + k))) ∧
      OnlyReplyChanged s t) ∧
    (s.hregOnly = false → Present s.store (s.addrOf .ireg start.toNat) → ∃ t, exec (.rir start count) s = .next t ∧
      RegisterReply s t Config.fcReadIregs count.toNat (fun k => s.x (s.addrOf .ireg (start.toNat + k))) ∧
      OnlyReplyChanged s t)

/-- R95, R129, R132: when and in which order the register reads raise. `SlaveFailure`, last, is for a
response that does not fit, which this hardware's `RESP_CAP` excludes (decision D13, log 20). That the
response bytes beyond the reply stay as they were is the model's choice (log 28). -/
def Obligations.RegisterReadsRaise : Prop :=
  ∀ (s : State) start count,
    (count.toNat < 1 ∨ 125 < count.toNat →
      (∃ t, exec (.rhr start count) s = .next t ∧ ExceptionReply s t 0x03#8 0x03#8 ∧ OnlyReplyChanged s t) ∧
      (s.hregOnly = false →
        ∃ t, exec (.rir start count) s = .next t ∧ ExceptionReply s t 0x04#8 0x03#8 ∧ OnlyReplyChanged s t)) ∧
    (1 ≤ count.toNat → count.toNat ≤ 125 →
      (¬ Present s.store (s.addrOf .hreg start.toNat) →
        ∃ t, exec (.rhr start count) s = .next t ∧ ExceptionReply s t 0x03#8 0x02#8 ∧ OnlyReplyChanged s t) ∧
      (s.hregOnly = false → ¬ Present s.store (s.addrOf .ireg start.toNat) →
        ∃ t, exec (.rir start count) s = .next t ∧ ExceptionReply s t 0x04#8 0x02#8 ∧ OnlyReplyChanged s t) ∧
      (s.params.respCap < 2 + 2 * count.toNat →
        (Present s.store (s.addrOf .hreg start.toNat) →
          ∃ t, exec (.rhr start count) s = .next t ∧ ExceptionReply s t 0x03#8 0x04#8 ∧ OnlyReplyChanged s t) ∧
        (s.hregOnly = false → Present s.store (s.addrOf .ireg start.toNat) →
          ∃ t, exec (.rir start count) s = .next t ∧ ExceptionReply s t 0x04#8 0x04#8 ∧ OnlyReplyChanged s t)))

/-- R55, R100 to R104: a bit read whose start address exists, and whose response fits, answers the packed
bits, bit 1 exactly for the value `0xFF00`. For a value that is neither `0xFF00` nor `0x0000` that is
decision D7 (log 17). It changes nothing but the reply. With this hardware's `RESP_CAP` of 252, decision D13
(log 20), the response of every count from 1 to 2000 fits. That the response bytes beyond the reply stay as
they were is the model's choice (log 28). -/
def Obligations.BitReadsAnswer : Prop :=
  ∀ (s : State) start count, s.hregOnly = false → 1 ≤ count.toNat → count.toNat ≤ 2000 →
    2 + (count.toNat + 7) / 8 ≤ s.params.respCap →
    (Present s.store (s.addrOf .coil start.toNat) → ∃ t, exec (.rc start count) s = .next t ∧
      BitReply s t 0x01#8 count.toNat (fun k => decide (s.x (s.addrOf .coil (start.toNat + k)) = 0xFF00#16)) ∧
      OnlyReplyChanged s t) ∧
    (Present s.store (s.addrOf .dinput start.toNat) → ∃ t, exec (.rdi start count) s = .next t ∧
      BitReply s t 0x02#8 count.toNat (fun k => decide (s.x (s.addrOf .dinput (start.toNat + k)) = 0xFF00#16)) ∧
      OnlyReplyChanged s t)

/-- R103, R129, R132: when and in which order the bit reads raise. `SlaveFailure`, last, is for a response
that does not fit, which this hardware's `RESP_CAP` excludes (decision D13, log 20). That the response bytes
beyond the reply stay as they were is the model's choice (log 28). -/
def Obligations.BitReadsRaise : Prop :=
  ∀ (s : State) start count, s.hregOnly = false →
    (count.toNat < 1 ∨ 2000 < count.toNat →
      (∃ t, exec (.rc start count) s = .next t ∧ ExceptionReply s t 0x01#8 0x03#8 ∧ OnlyReplyChanged s t) ∧
      (∃ t, exec (.rdi start count) s = .next t ∧ ExceptionReply s t 0x02#8 0x03#8 ∧ OnlyReplyChanged s t)) ∧
    (1 ≤ count.toNat → count.toNat ≤ 2000 →
      (¬ Present s.store (s.addrOf .coil start.toNat) →
        ∃ t, exec (.rc start count) s = .next t ∧ ExceptionReply s t 0x01#8 0x02#8 ∧ OnlyReplyChanged s t) ∧
      (¬ Present s.store (s.addrOf .dinput start.toNat) →
        ∃ t, exec (.rdi start count) s = .next t ∧ ExceptionReply s t 0x02#8 0x02#8 ∧ OnlyReplyChanged s t) ∧
      (s.params.respCap < 2 + (count.toNat + 7) / 8 →
        (Present s.store (s.addrOf .coil start.toNat) →
          ∃ t, exec (.rc start count) s = .next t ∧ ExceptionReply s t 0x01#8 0x04#8 ∧ OnlyReplyChanged s t) ∧
        (Present s.store (s.addrOf .dinput start.toNat) →
          ∃ t, exec (.rdi start count) s = .next t ∧ ExceptionReply s t 0x02#8 0x04#8 ∧ OnlyReplyChanged s t)))

/-! ### Single writes -/

/-- R105 to R107: a single write to an existing entry, and its read-back, which for `WSC` compares all 16
bits by decision D8 (log 18). Without a hook the value is stored and the reply is `Echo`. With a hook its
answer, scripted or free, is stored, and the reply is `SlaveFailure` exactly when the answer differs from
the value requested (the form of an answer is the model's, log 4). That the response bytes beyond an
exception reply, and all of them in mode `Echo`, stay as they were is the model's choice (log 28). -/
def Obligations.SingleWritesStoreAndReadBack : Prop :=
  ∀ (s : State) off value i e,
    (FirstAt s.store (s.addrOf .hreg off.toNat) i e →
      (e.hookEn = false → ∃ t, exec (.wsr off value) s = .next t ∧ SingleWriteEchoed s t value i) ∧
      (e.hookEn = true → (∀ more, s.hookScript ≠ .never :: more) → ∃ t w, exec (.wsr off value) s = .next t ∧
        SingleWriteDone s t 0x06#8 (s.addrOf .hreg off.toNat) value i e w)) ∧
    (s.hregOnly = false → value = 0xFF00#16 ∨ value = 0x0000#16 → FirstAt s.store (s.addrOf .coil off.toNat) i e →
      (e.hookEn = false → ∃ t, exec (.wsc off value) s = .next t ∧ SingleWriteEchoed s t value i) ∧
      (e.hookEn = true → (∀ more, s.hookScript ≠ .never :: more) → ∃ t w, exec (.wsc off value) s = .next t ∧
        SingleWriteDone s t 0x05#8 (s.addrOf .coil off.toNat) value i e w))

/-- R105, R106, R132: `WSC` refuses every value but two before it looks at the address; an absent address
raises `IllegalAddress` with nothing written and no hook called. That the response bytes beyond the reply
stay as they were is the model's choice (log 28). -/
def Obligations.SingleWritesRaise : Prop :=
  ∀ (s : State) off value,
    (¬ Present s.store (s.addrOf .hreg off.toNat) →
      ∃ t, exec (.wsr off value) s = .next t ∧ ExceptionReply s t 0x06#8 0x02#8 ∧ OnlyReplyChanged s t) ∧
    (s.hregOnly = false →
      (value ≠ 0xFF00#16 → value ≠ 0x0000#16 →
        ∃ t, exec (.wsc off value) s = .next t ∧ ExceptionReply s t 0x05#8 0x03#8 ∧ OnlyReplyChanged s t) ∧
      (value = 0xFF00#16 ∨ value = 0x0000#16 → ¬ Present s.store (s.addrOf .coil off.toNat) →
        ∃ t, exec (.wsc off value) s = .next t ∧ ExceptionReply s t 0x05#8 0x02#8 ∧ OnlyReplyChanged s t))

/-! ### Multiple writes -/

/-- R110, R111, R113: a multi-write over existing entries without hooks stores every item and answers start
and count. Register `k` is payload bytes `2k` (high) and `2k+1`; coil `k` is bit `k mod 8` of payload byte
`k div 8`: the payload's layout is decision D15 (log 19). The parameters meet R5's constraints, so that the
response fits and no two items share an address. That the response bytes beyond the reply stay as they were
is the model's choice (log 28). -/
def Obligations.MultiWritesStoreTheRange : Prop :=
  ∀ (s : State) start count bc payload, s.params.Ok → payload.length = bc.toNat →
    (WmrLegal count bc → RangePresent s .hreg start.toNat count.toNat →
      (∀ k i e, k < count.toNat → FirstAt s.store (s.addrOf .hreg (start.toNat + k)) i e → e.hookEn = false) →
      ∃ t, exec (.wmr start count bc payload) s = .next t ∧ RangeReply s t 0x10#8 start count ∧
        RangeStored s t .hreg start.toNat count.toNat (payloadRegister payload) ∧
        t = { s with store := t.store, resp := t.resp, respLen := 5, replyMode := .normal }) ∧
    (s.hregOnly = false → WmcLegal count bc → RangePresent s .coil start.toNat count.toNat →
      (∀ k i e, k < count.toNat → FirstAt s.store (s.addrOf .coil (start.toNat + k)) i e → e.hookEn = false) →
      ∃ t, exec (.wmc start count bc payload) s = .next t ∧ RangeReply s t 0x0F#8 start count ∧
        RangeStored s t .coil start.toNat count.toNat (payloadCoil payload) ∧
        t = { s with store := t.store, resp := t.resp, respLen := 5, replyMode := .normal })

/-- R45(b), R74, R114: with hooks, the calls are made in ascending order, the answers are the environment's
(its script in order, then free values), they are what is stored, and the reply is the normal one whatever
they are: there is no read-back. Order and layout are decision D15 (log 19), the form of an answer and the
record of calls the model's (logs 4, 24). A hook that never answers: `MultiWritesWaitForTheirHook`. That the
response bytes beyond the reply stay as they were is the model's choice (log 28). -/
def Obligations.MultiWritesDoNotReadBack : Prop :=
  ∀ (s : State) start count bc payload, s.params.Ok → payload.length = bc.toNat → Answering s →
    (WmrLegal count bc → RangePresent s .hreg start.toNat count.toNat →
      ∃ t, exec (.wmr start count bc payload) s = .next t ∧
        RangeWriteDone s t 0x10#8 .hreg start count (payloadRegister payload)) ∧
    (s.hregOnly = false → WmcLegal count bc → RangePresent s .coil start.toNat count.toNat →
      ∃ t, exec (.wmc start count bc payload) s = .next t ∧
        RangeWriteDone s t 0x0F#8 .coil start count (payloadCoil payload))

/-- R110, R111, R132: when and in which order the multi-writes raise. That the response bytes beyond the
reply stay as they were is the model's choice (log 28). -/
def Obligations.MultiWritesRaise : Prop :=
  (∀ (s : State) start count bc payload, (Instr.wmr start count bc payload).wellFormed = true →
    (¬ WmrLegal count bc → ∃ t, exec (.wmr start count bc payload) s = .next t ∧
      ExceptionReply s t 0x10#8 0x03#8 ∧ OnlyReplyChanged s t) ∧
    (WmrLegal count bc → ¬ RangePresent s .hreg start.toNat count.toNat →
      ∃ t, exec (.wmr start count bc payload) s = .next t ∧ ExceptionReply s t 0x10#8 0x02#8 ∧ OnlyReplyChanged s t)) ∧
  ∀ (s : State) start count bc payload, s.hregOnly = false → (Instr.wmc start count bc payload).wellFormed = true →
    (¬ WmcLegal count bc → ∃ t, exec (.wmc start count bc payload) s = .next t ∧
      ExceptionReply s t 0x0F#8 0x03#8 ∧ OnlyReplyChanged s t) ∧
    (WmcLegal count bc → ¬ RangePresent s .coil start.toNat count.toNat →
      ∃ t, exec (.wmc start count bc payload) s = .next t ∧ ExceptionReply s t 0x0F#8 0x02#8 ∧ OnlyReplyChanged s t)

/-- R112: every check comes before the first write. A multi-write that fails a check changes nothing but
the reply and calls no hook; once the checks have passed, every write of the range finds its entry,
whatever the hooks answer. -/
def Obligations.MultiWritesAreAllOrNothing : Prop :=
  (∀ (s : State) start count bc payload, (Instr.wmr start count bc payload).wellFormed = true →
    ¬ (WmrLegal count bc ∧ RangePresent s .hreg start.toNat count.toNat) →
      ∃ t, exec (.wmr start count bc payload) s = .next t ∧ t.store = s.store ∧ NoHookCalled s t ∧
        OnlyReplyChanged s t) ∧
  (∀ (s : State) start count bc payload, s.hregOnly = false → (Instr.wmc start count bc payload).wellFormed = true →
    ¬ (WmcLegal count bc ∧ RangePresent s .coil start.toNat count.toNat) →
      ∃ t, exec (.wmc start count bc payload) s = .next t ∧ t.store = s.store ∧ NoHookCalled s t ∧
        OnlyReplyChanged s t) ∧
  ∀ (s : State) kind start src values, RangePresent s kind start values.length →
    (State.writeItems kind start src values 0 s).1 ≠ .absent ∧
      (Answering s → (State.writeItems kind start src values 0 s).1 = .ok)

/-! ### The holding-register-only build and reset -/

/-- R62: with `HREG_ONLY = 1` five function codes are unknown, and the other three do what they do with
`HREG_ONLY = 0`. That the response bytes beyond the reply stay as they were is the model's choice (log 28). -/
def Obligations.HregOnlyRemovesFiveFunctions : Prop :=
  (∀ (s : State) a b bc payload, s.hregOnly = true →
    (∃ t, exec (.rc a b) s = .next t ∧ ExceptionReply s t 0x01#8 0x01#8 ∧ OnlyReplyChanged s t) ∧
    (∃ t, exec (.rdi a b) s = .next t ∧ ExceptionReply s t 0x02#8 0x01#8 ∧ OnlyReplyChanged s t) ∧
    (∃ t, exec (.rir a b) s = .next t ∧ ExceptionReply s t 0x04#8 0x01#8 ∧ OnlyReplyChanged s t) ∧
    (∃ t, exec (.wsc a b) s = .next t ∧ ExceptionReply s t 0x05#8 0x01#8 ∧ OnlyReplyChanged s t) ∧
    ((Instr.wmc a b bc payload).wellFormed = true →
      ∃ t, exec (.wmc a b bc payload) s = .next t ∧ ExceptionReply s t 0x0F#8 0x01#8 ∧ OnlyReplyChanged s t)) ∧
  ∀ (s : State) a b bc payload h, (Instr.wmr a b bc payload).wellFormed = true →
    ∀ i ∈ [Instr.rhr a b, .wsr a b, .wmr a b bc payload],
      ∃ t, exec i s = .next t ∧ exec i { s with hregOnly := h } = .next { t with hregOnly := h }

/-- R145: asserting `reset`, whatever the engine is doing, gives every piece of the block's state the
value of R24, with `HREG_ONLY` from the strap, and undoes no answered hook call. Reset is the spec's
decision D19 (logs 8, 12, 15). -/
def Obligations.ResetGivesTheResetValues : Prop :=
  ∀ (s : State) strap rest, s.inputs = .reset strap :: rest →
    ∃ t, step s = .next t ∧ t.store = [] ∧ t.phase = .idle ∧ t.busy = false ∧ t.replyMode = .suppressed ∧
      t.respLen = 0 ∧ t.reqLen = 0 ∧ t.hregOnly = strap ∧ t.hookWait = none ∧ t.reply = [] ∧
      t.hookTrace = s.hookTrace ∧ t.ready = true

/-- R146: with the empty store every well-formed request is answered by the ordinary rules: a bad value or
count with `IllegalValue`, everything else with `IllegalAddress`. That the response bytes beyond the reply
stay as they were is the model's choice (log 28). -/
def Obligations.EmptyStoreAnswersIllegalAddress : Prop :=
  ∀ (s : State), s.store = [] → s.hregOnly = false → ∀ i : Instr, i.wellFormed = true →
    ∃ t, exec i s = .next t ∧ OnlyReplyChanged s t ∧
      match i with
      | .rc _ count => ExceptionReply s t 0x01#8 (if 1 ≤ count.toNat ∧ count.toNat ≤ 2000 then 0x02#8 else 0x03#8)
      | .rdi _ count => ExceptionReply s t 0x02#8 (if 1 ≤ count.toNat ∧ count.toNat ≤ 2000 then 0x02#8 else 0x03#8)
      | .rhr _ count => ExceptionReply s t 0x03#8 (if 1 ≤ count.toNat ∧ count.toNat ≤ 125 then 0x02#8 else 0x03#8)
      | .rir _ count => ExceptionReply s t 0x04#8 (if 1 ≤ count.toNat ∧ count.toNat ≤ 125 then 0x02#8 else 0x03#8)
      | .wsc _ value => ExceptionReply s t 0x05#8 (if value = 0xFF00#16 ∨ value = 0x0000#16 then 0x02#8 else 0x03#8)
      | .wsr _ _ => ExceptionReply s t 0x06#8 0x02#8
      | .wmc _ count bc _ => (WmcLegal count bc → ExceptionReply s t 0x0F#8 0x02#8) ∧
          (¬ WmcLegal count bc → ExceptionReply s t 0x0F#8 0x03#8)
      | .wmr _ count bc _ => (WmrLegal count bc → ExceptionReply s t 0x10#8 0x02#8) ∧
          (¬ WmrLegal count bc → ExceptionReply s t 0x10#8 0x03#8)

/-! ### The configuration port -/

/-- R80, R83: registration appends one entry, whatever its address, without calling its hook; a full
store changes nothing and says so. The port carries `HOOK_ID_W` bits of the hook identifier. Offset width,
raw values, capacity and identifiers are decisions D4, D17, D5 and D6 (logs 11, 27), the kept answer is the
model's (log 16). -/
def Obligations.CfgAddAppendsOneEntry : Prop :=
  ∀ (s : State) kind off init hookEn hookId rest,
    s.ready = true → s.inputs = .cfg (.add kind off init hookEn hookId) :: rest →
    (s.params.storeCap ≠ some s.store.length →
      step s = .next { s with
        store := s.store ++ [⟨s.addrOf kind off.toNat, init, hookEn, hookId % 2 ^ s.params.hookIdW⟩]
        cfgOut := some .ok
        inputs := rest }) ∧
    (s.params.storeCap = some s.store.length →
      step s = .next { s with cfgOut := some .full, inputs := rest })

/-- R81, R84: the two reading operations, and that they only read. `cfg_enum` is decision D24 (log 27). -/
def Obligations.CfgReadAndEnumOnlyRead : Prop :=
  ∀ (s : State) rest, s.ready = true →
    (∀ kind off, s.inputs = .cfg (.read kind off) :: rest →
      ∃ v, step s = .next { s with cfgOut := some (.value v), inputs := rest } ∧
        (∀ i e, FirstAt s.store (s.addrOf kind off.toNat) i e → v = e.value) ∧
        (¬ Present s.store (s.addrOf kind off.toNat) → v = 0x0000#16)) ∧
    (∀ i, s.inputs = .cfg (.enum i) :: rest →
      (∀ e, s.store[i]? = some e → step s = .next { s with cfgOut := some (.entry e), inputs := rest }) ∧
      (s.store.length ≤ i → step s = .next { s with cfgOut := some .noEntry, inputs := rest }))

/-- R82: `cfg_write` takes the write path of a PDU with the source tag `SRC_LOCAL` (`0x00` with this
hardware's parameters, decision D16, log 25), for a register of any kind. A hook that never answers:
`CfgWriteWaitsForItsHook`. -/
def Obligations.CfgWriteUsesTheWritePath : Prop :=
  ∀ (s : State) kind off value rest,
    s.ready = true → s.inputs = .cfg (.write kind off value) :: rest →
    (¬ Present s.store (s.addrOf kind off.toNat) → step s = .next { s with cfgOut := some .absent, inputs := rest }) ∧
    ∀ i e, FirstAt s.store (s.addrOf kind off.toNat) i e →
      (e.hookEn = false → ∃ t, step s = .next t ∧ OneValueChanged s.store t.store i value ∧
        t = { s with store := t.store, cfgOut := some .ok, inputs := rest }) ∧
      (e.hookEn = true → (∀ more, s.hookScript ≠ .never :: more) → ∃ t w, step s = .next t ∧
        OneValueChanged s.store t.store i w ∧
        CallAnswered s t ⟨e.hookId, s.addrOf kind off.toNat, value, s.params.srcLocal⟩ w ∧
        t = { s with
          store := t.store, cfgOut := some .ok, inputs := rest,
          hookTrace := t.hookTrace, hookScript := t.hookScript, hookDraws := t.hookDraws })

/-- R12, R70: an entry registered behind another with its address is stored and enumerated, and no lookup
ever means it: reads, finds and writes go on as before, and no write changes its value. -/
def Obligations.DuplicateEntryIsShadowed : Prop :=
  ∀ (s : State) kind off init hookEn hookId rest,
    s.ready = true → s.inputs = .cfg (.add kind off init hookEn hookId) :: rest →
    s.params.storeCap ≠ some s.store.length → Present s.store (s.addrOf kind off.toNat) →
    ∃ t, step s = .next t ∧ t.store.length = s.store.length + 1 ∧
      t.store[s.store.length]? =
        some ⟨s.addrOf kind off.toNat, init, hookEn, hookId % 2 ^ s.params.hookIdW⟩ ∧
      (∀ a, t.x a = s.x a) ∧ (∀ a, find t.store a = find s.store a) ∧
      ∀ a v src, (t.storeWrite a v src).2.store[s.store.length]? =
        some ⟨s.addrOf kind off.toNat, init, hookEn, hookId % 2 ^ s.params.hookIdW⟩

/-- R79, R16: an operation taken leaves the reply, the request and the phase alone, and unless its hook
never answers it has ended with the step: the engine is ready again. While the engine is not ready none is
taken (decision D20; the waiting step is the model's, log 7). That the response bytes beyond the reply stay
too is the model's choice (log 28). -/
def Obligations.CfgOpsLeaveTheReplyAlone : Prop :=
  ∀ (s : State) op rest, s.inputs = .cfg op :: rest →
    (s.ready = false → step s = .next s) ∧
    (s.ready = true → ∃ t, step s = .next t ∧ (Answering s → t.ready = true) ∧
      t = { s with
        store := t.store, cfgOut := t.cfgOut, inputs := rest, hookWait := t.hookWait,
        hookTrace := t.hookTrace, hookScript := t.hookScript, hookDraws := t.hookDraws })

/-! ### Encoding -/

/-- R51 to R53, R57 to R59, R64: decoding an encoded well-formed instruction gives it back, with every
operand, and leaves the bytes behind it. -/
def Obligations.DecodeInvertsEncode : Prop :=
  ∀ (i : Instr) rest, i.wellFormed = true → decode (encode i ++ rest) = .ok (i, rest)

/-- The other direction: what decodes is well formed, and its bytes are its encoding. -/
def Obligations.EncodeInvertsDecode : Prop :=
  ∀ bs (i : Instr) rest, decode bs = .ok (i, rest) → i.wellFormed = true ∧ encode i ++ rest = bs

/-- R60: a byte sequence is rejected as an unknown function exactly when its byte 0 is outside the
table, whatever stands behind it. -/
def Obligations.UnknownCodesAreRejectedByName : Prop :=
  ∀ fc tail code, decode (fc :: tail) = .error (.unknownFunction code) ↔
    code = fc ∧ fc ∉ [0x01#8, 0x02#8, 0x03#8, 0x04#8, 0x05#8, 0x06#8, 0x0F#8, 0x10#8]

/-- R51 to R53: words written out from the formats decode to the instructions they stand for. -/
def Obligations.WrittenOutWordsDecode : Prop :=
  decode [0x01#8, 0x12#8, 0x34#8, 0x00#8, 0x0A#8] = .ok (.rc 0x1234#16 10#16, []) ∧
  decode [0x03#8, 0x00#8, 0x02#8, 0x01#8, 0x00#8] = .ok (.rhr 2#16 256#16, []) ∧
  decode [0x05#8, 0x27#8, 0x10#8, 0xFF#8, 0x00#8] = .ok (.wsc 10000#16 0xFF00#16, []) ∧
  decode [0x06#8, 0x00#8, 0x01#8, 0xBE#8, 0xEF#8, 0x99#8] = .ok (.wsr 1#16 0xBEEF#16, [0x99#8]) ∧
  decode [0x10#8, 0x00#8, 0x00#8, 0x00#8, 0x01#8, 0x02#8, 0x01#8, 0x02#8] =
    .ok (.wmr 0#16 1#16 2#8 [0x01#8, 0x02#8], [])

/-! ### Transactions -/

/-- R85, R90, R92: a PDU whose bytes decode to `i` runs `i`: the engine takes the bytes into the request
buffer, discards the previous response and enters `Processing`; then `exec i` runs; then, unless a hook call
is waiting, the engine is `Idle` again. That the discarded response's bytes stay in the buffer is the
model's choice (log 28). -/
def Obligations.StepRunsTheDecodedInstruction : Prop :=
  ∀ (s : State) bytes rest i tail,
    s.ready = true → s.inputs = .pdu bytes :: rest → bytes.length ≤ s.params.reqCap →
    decode bytes = .ok (i, tail) →
    ∃ a : State, a.reqBytes = bytes ∧
      a = { s with
        req := a.req, reqLen := bytes.length, phase := .processing, respLen := 0, inputs := rest,
        pduDraws := s.pduDraws + 1 } ∧
      step s = match exec i a with
        | .next t => .next (if t.hookWait = none then { t with phase := .idle } else t)
        | .fault r => .fault r
        | .refused r => .refused r

/-- R64 (decision D29): bytes behind the needed length change nothing but what `Echo` retransmits. That this
includes the response bytes beyond the reply is the model's choice (log 28). -/
def Obligations.TrailingBytesChangeNothing : Prop :=
  ∀ (s : State) (i : Instr) x y rest, s.ready = true → i.wellFormed = true →
    (encode i ++ x).length ≤ s.params.reqCap → (encode i ++ y).length ≤ s.params.reqCap →
    ∃ t u, step { s with inputs := .pdu (encode i ++ x) :: rest } = .next t ∧
      step { s with inputs := .pdu (encode i ++ y) :: rest } = .next u ∧
      u = { t with req := u.req, reqLen := u.reqLen } ∧
      (t.phase = .idle → t.replyMode = .normal → u.reply = t.reply) ∧
      (t.phase = .idle → t.replyMode = .echo → t.reply = encode i ++ x ∧ u.reply = encode i ++ y)

/-- R108: an `Echo` reply is the request, byte for byte, trailing bytes included; nothing is built; only the
function codes of the two single writes give it. That the response buffer, which is not part of an `Echo`
reply, is as it was is the model's choice (log 28). -/
def Obligations.EchoIsTheRequest : Prop :=
  ∀ (s t : State) bytes rest, s.ready = true → s.inputs = .pdu bytes :: rest → step s = .next t →
    t.phase = .idle → t.replyMode = .echo →
    t.reply = bytes ∧ t.respLen = 0 ∧ t.resp = s.resp ∧
      ∀ fc, bytes.head? = some fc → fc = Config.fcWriteCoil ∨ fc = Config.fcWriteHreg

/-- R17, R63, U3 (decision D12, log 3): a request shorter than its needed length is still answered, whatever
the missing bytes read as: its own bytes in mode `Echo`, else a response that begins with its function code or that code
with bit 7 set. -/
def Obligations.ShortRequestsAreAnswered : Prop :=
  ∀ (s : State) fc tail rest, s.ready = true → s.inputs = .pdu (fc :: tail) :: rest → tail.length < s.params.reqCap →
    Answering s →
    ∃ t, step s = .next t ∧ t.phase = .idle ∧
      ((t.replyMode = .echo ∧ t.reply = fc :: tail) ∨
        (t.replyMode = .normal ∧ (t.reply.head? = some fc ∨ t.reply.head? = some (fc ||| 0x80#8))))

/-- R94: every PDU is answered. For every request content and length, every store and every sequence of
hook answers the transaction ends with `Echo` or with `Normal` and 2 to 252 bytes, within `RESP_CAP` when
the parameters meet R5's constraints; no PDU is refused. The spec derives it from its other rules; the
buffer sizes are decisions D13 and D27 (logs 14, 20). -/
def Obligations.EveryPduIsAnswered : Prop :=
  ∀ (s : State) bytes rest, s.ready = true → s.inputs = .pdu bytes :: rest → bytes.length ≤ s.params.reqCap →
    Answering s →
    ∃ t, step s = .next t ∧ t.phase = .idle ∧ t.ready = true ∧
      (t.replyMode = .echo ∨ (t.replyMode = .normal ∧ 2 ≤ t.respLen ∧ t.respLen ≤ 252 ∧
        (s.params.Ok → t.respLen ≤ s.params.respCap)))

/-- R149, as a state that steps to itself (the model's form of "stuck", log 5): a transaction whose hook
never answers stays in `Processing` with its mode unwritten, a `cfg_write` whose hook never answers in
`Idle` without a result (log 16); neither leaves the engine ready, and an engine that is not ready takes
nothing, no PDU and no operation, but `reset`. Last clause: how a single write comes to wait. That `resp`
and `resp_len` are as they were while a single write waits is the model's choice (log 6): the spec leaves
them open while busy (R16, U5). -/
def Obligations.UnansweredHookWaitsForReset : Prop :=
  (∀ (s t : State) bytes rest, s.ready = true → s.inputs = .pdu bytes :: rest → step s = .next t →
    t.hookWait ≠ none → t.phase = .processing ∧ t.busy = true ∧ t.ready = false ∧ t.replyMode = s.replyMode) ∧
  (∀ (s t : State) kind off value rest, s.ready = true → s.inputs = .cfg (.write kind off value) :: rest →
    step s = .next t → t.hookWait ≠ none →
    t.phase = .idle ∧ t.ready = false ∧ t.cfgOut = none ∧ t.store = s.store) ∧
  (∀ t : State, t.ready = false → (∀ strap rest, t.inputs ≠ .reset strap :: rest) → step t = .next t) ∧
  (∀ (t : State) strap rest, t.inputs = .reset strap :: rest → ∃ u, step t = .next u ∧ u.ready = true ∧ u.inputs = rest) ∧
  ∀ (s : State) off value i e more, e.hookEn = true → s.hookScript = .never :: more →
    (FirstAt s.store (s.addrOf .hreg off.toNat) i e → exec (.wsr off value) s = .next { s with
      hookScript := more, hookWait := some ⟨e.hookId, s.addrOf .hreg off.toNat, value, 0x06#8⟩ }) ∧
    (s.hregOnly = false → value = 0xFF00#16 ∨ value = 0x0000#16 →
      FirstAt s.store (s.addrOf .coil off.toNat) i e → exec (.wsc off value) s = .next { s with
        hookScript := more, hookWait := some ⟨e.hookId, s.addrOf .coil off.toNat, value, 0x05#8⟩ })

/-- R94, 93_implementation_defined.md: the machine never faults, and the one refusal of a step is of a
PDU longer than the request buffer (log 14), which the transport cannot present. -/
def Obligations.StepNeverStops : Prop :=
  ∀ (s : State) o, step s = o →
    (∃ t, o = .next t) ∨
      (o = .refused .pduExceedsReqCap ∧ ∃ bytes rest, s.inputs = .pdu bytes :: rest ∧ s.params.reqCap < bytes.length)

/-- Log 13, the model's own: `exec` refuses exactly the terms that are the decoding of no PDU. -/
def Obligations.ExecRefusesOnlyIllFormedTerms : Prop :=
  ∀ (i : Instr) (s : State),
    (i.wellFormed = true → ∃ t, exec i s = .next t) ∧ (i.wellFormed = false → exec i s = .refused .illFormedInstr)

/-! ### Whole-machine rules -/

/-- Every step keeps the invariant, for every instantiation that meets R5's constraints (logs 2, 6, 22 for the
model's part of it). -/
def Obligations.StepKeepsInv : Prop :=
  ∀ s t : State, s.Inv → step s = .next t → t.Inv

/-- The invariant holds after reset. -/
def Obligations.ResetHasInv : Prop := State.reset.Inv

/-- R10, R11, R140: but for `reset`, no step removes, reorders or re-addresses an entry or changes its
hook; only `cfg_add` creates one, at the end. -/
def Obligations.EntriesPersist : Prop :=
  ∀ s t : State, step s = .next t → (∀ strap rest, s.inputs ≠ .reset strap :: rest) →
    ∃ added, t.store.map Entry.fixedPart = s.store.map Entry.fixedPart ++ added ∧
      (added ≠ [] → ∃ kind off init hookEn hookId rest,
        s.inputs = .cfg (.add kind off init hookEn hookId) :: rest ∧
        added = [(s.addrOf kind off.toNat, hookEn, hookId % 2 ^ s.params.hookIdW)])

/-- R137, R151: a transaction does not depend on what the previous one left in the reply, exception or
not, and nothing of the previous response shows in its own. -/
def Obligations.PreviousReplyNeverLeaks : Prop :=
  ∀ (s t : State) resp respLen mode bytes rest,
    s.ready = true → s.inputs = .pdu bytes :: rest → step s = .next t →
    ∃ u, step { s with resp := resp, respLen := respLen, replyMode := mode } = .next u ∧
      u = { t with resp := u.resp, respLen := u.respLen, replyMode := u.replyMode } ∧
      (t.phase = .idle → u.reply = t.reply ∧ u.replyMode = t.replyMode ∧ u.respLen = t.respLen)

/-- R19, R22, R48, R124: a transaction never ends `Suppressed`, and none changes `HREG_ONLY` or the request
it was given. That it keeps the configuration port's answer is the model's choice (log 16), and that it keeps
the parameters follows from where the model holds them (log 11). -/
def Obligations.TransactionLeavesTheRestAlone : Prop :=
  ∀ (s t : State) bytes rest, s.ready = true → s.inputs = .pdu bytes :: rest → step s = .next t →
    t.reqBytes = bytes ∧ t.reqLen = bytes.length ∧ t.hregOnly = s.hregOnly ∧ t.cfgOut = s.cfgOut ∧
      t.params = s.params ∧ t.inputs = rest ∧ (t.phase = .idle → t.replyMode ≠ .suppressed)

/-! ### How a write comes to wait for its hook -/

/-- R149 with R110, R111 and R45(b): a multi-write over an existing range waits at the first hooked item `m`
whose call is never answered. The items below `m` are stored and their calls were answered in order; `m` and
the items above it are as they were; the call for `m` stands on the port. The script of answers and the
record of calls are the model's (logs 4, 5, 24), the payload's layout is decision D15 (log 19). That
`resp_len` is 5 and the response bytes are as they were while it waits is the model's choice (log 6): the
spec leaves these outputs open while busy (R16, U5). -/
def Obligations.MultiWritesWaitForTheirHook : Prop :=
  ∀ (s : State) start count bc payload m i e w more, s.params.Ok → payload.length = bc.toNat →
    m < count.toNat → e.hookEn = true →
    (WmrLegal count bc → RangePresent s .hreg start.toNat count.toNat →
      FirstAt s.store (s.addrOf .hreg (start.toNat + m)) i e →
      ScriptedThenNever s .hreg start.toNat m 0x10#8 (payloadRegister payload) w more →
      ∃ t, exec (.wmr start count bc payload) s = .next t ∧
        RangeWriteWaits s t 0x10#8 .hreg start.toNat m e (payloadRegister payload) w more) ∧
    (s.hregOnly = false → WmcLegal count bc → RangePresent s .coil start.toNat count.toNat →
      FirstAt s.store (s.addrOf .coil (start.toNat + m)) i e →
      ScriptedThenNever s .coil start.toNat m 0x0F#8 (payloadCoil payload) w more →
      ∃ t, exec (.wmc start count bc payload) s = .next t ∧
        RangeWriteWaits s t 0x0F#8 .coil start.toNat m e (payloadCoil payload) w more)

/-- R148, R149: a `cfg_write` whose hook never answers stores nothing and gives no result; its call stands on
the port. That the port then holds no answer is the model's (log 16), the script its own (logs 4, 5). -/
def Obligations.CfgWriteWaitsForItsHook : Prop :=
  ∀ (s : State) kind off value rest i e more,
    s.ready = true → s.inputs = .cfg (.write kind off value) :: rest →
    FirstAt s.store (s.addrOf kind off.toNat) i e → e.hookEn = true → s.hookScript = .never :: more →
    step s = .next { s with
      cfgOut := none, inputs := rest, hookScript := more,
      hookWait := some ⟨e.hookId, s.addrOf kind off.toNat, value, s.params.srcLocal⟩ }

/-! ### The parameters -/

/-- R5, R22, R145: the parameters have this hardware's values after reset, they meet the constraints, and no
step, of any instantiation, changes one of the six of `params`; `HREG_ONLY`, the seventh, is false in
`State.reset`, changes with no step but a `reset`, and takes the strap's level with that. Of the values, 17,
253, 252, 8, `0x00`, the unbounded store and `HREG_ONLY = 0` are the spec's decisions D3, D27, D13, D6, D16,
D5 and D23 (logs 10, 14, 20, 27, 25, 11, 12); that State holds them is the model's choice (logs 11, 12). -/
def Obligations.ParametersAreConstant : Prop :=
  State.reset.params = ⟨17, none, 253, 252, 8, 0x00#8⟩ ∧ State.reset.params.Ok ∧ State.reset.hregOnly = false ∧
    ∀ s t : State, step s = .next t →
      t.params = s.params ∧
      ((∀ strap rest, s.inputs ≠ .reset strap :: rest) → t.hregOnly = s.hregOnly) ∧
      ∀ strap rest, s.inputs = .reset strap :: rest → t.hregOnly = strap
end

