-- ==== Sys2Proof/Laws/Memory.lean ====
section
/-! SUPPORT. Laws of the byte spaces: read after write, and that every write keeps the canonical form. -/

namespace Sys2Proof.Machine

@[simp] theorem Memory.read_nil (a : Nat) : Memory.read [] a = unlistedByte := rfl

theorem Memory.read_cons (b : Nat) (v : Byte) (m : Memory) (a : Nat) :
    Memory.read ((b, v) :: m) a = if b = a then v else m.read a := rfl

theorem Memory.read_without (m : Memory) (a b : Nat) :
    Memory.read (m.filter (fun c => c.1 != a)) b = if b = a then unlistedByte else m.read b := by
  induction m with
  | nil => simp
  | cons c rest ih =>
    obtain ⟨x, v⟩ := c
    by_cases hx : x = a
    · subst hx
      rw [List.filter_cons_of_neg (by simp), ih, Memory.read_cons]
      by_cases hb : b = x
      · simp [hb]
      · simp [hb, Ne.symm hb]
    · rw [List.filter_cons_of_pos (by simpa using hx), Memory.read_cons, Memory.read_cons, ih]
      by_cases hb : x = b
      · subst hb; simp [hx]
      · simp [hb]

theorem Memory.read_insert (m : Memory) (a b : Nat) (v : Byte) (h : ∀ c ∈ m, c.1 ≠ a) :
    Memory.read (Memory.insert m a v) b = if b = a then v else m.read b := by
  induction m with
  | nil => simp [Memory.insert, Memory.read_cons, eq_comm]
  | cons c rest ih =>
    obtain ⟨x, w⟩ := c
    have hx : x ≠ a := h (x, w) (by simp)
    have ih := ih (fun c hc => h c (by simp [hc]))
    unfold Memory.insert
    split
    · simp [Memory.read_cons, eq_comm]
    · by_cases hb : x = b
      · subst hb
        simp [Memory.read_cons, hx]
      · simp [Memory.read_cons, hb, ih]

/-- Read after write, at the same address and at every other one. -/
@[simp] theorem Memory.read_write (m : Memory) (a b : Nat) (v : Byte) :
    Memory.read (m.write a v) b = if b = a then v else m.read b := by
  unfold Memory.write
  split
  · rename_i hv
    rw [Memory.read_without, hv]
  · rw [Memory.read_insert _ _ _ _ (by simp), Memory.read_without]
    by_cases h : b = a <;> simp [h]

/-- What a run of bytes reads as, and that every other address is left alone. -/
theorem Memory.read_writeBytes (bs : List Byte) : ∀ (m : Memory) (i a : Nat),
    Memory.read (m.writeBytes i bs) a =
      if i ≤ a ∧ a < i + bs.length then bs.getD (a - i) 0#8 else m.read a := by
  induction bs with
  | nil => intro m i a; rw [if_neg (by simp)]; rfl
  | cons b bs ih =>
    intro m i a
    simp only [Memory.writeBytes, ih, Memory.read_write, List.length_cons]
    by_cases h : a = i
    · subst h; simp
    · by_cases h1 : i + 1 ≤ a ∧ a < i + 1 + bs.length
      · have h2 : i ≤ a ∧ a < i + (bs.length + 1) := by omega
        have h3 : a - i = (a - (i + 1)) + 1 := by omega
        simp [h1, h2, h3]
      · have h2 : ¬ (i ≤ a ∧ a < i + (bs.length + 1)) := by omega
        rw [if_neg h1, if_neg h2, if_neg h]

theorem Memory.writeBytes_append (m : Memory) (i : Nat) (bs : List Byte) (a : Nat) (h : i + bs.length ≤ a) :
    Memory.read (m.writeBytes i bs) a = m.read a := by
  rw [Memory.read_writeBytes, if_neg (by omega)]

theorem Memory.mem_insert (m : Memory) (a : Nat) (v : Byte) (c : Host.Cell) :
    c ∈ Memory.insert m a v ↔ c = (a, v) ∨ c ∈ m := by
  induction m with
  | nil => simp [Memory.insert]
  | cons d rest ih =>
    obtain ⟨x, w⟩ := d
    unfold Memory.insert
    split
    · simp
    · simp only [List.mem_cons, ih]
      tauto

theorem Memory.insert_sorted (m : Memory) (a : Nat) (v : Byte) (h : ∀ c ∈ m, c.1 ≠ a)
    (hm : m.Pairwise (fun c d => c.1 < d.1)) :
    (Memory.insert m a v).Pairwise (fun c d => c.1 < d.1) := by
  induction m with
  | nil => simp [Memory.insert]
  | cons d rest ih =>
    obtain ⟨x, w⟩ := d
    have hx : x ≠ a := h (x, w) (by simp)
    rw [List.pairwise_cons] at hm
    unfold Memory.insert
    split
    · rename_i hlt
      refine List.pairwise_cons.2 ⟨?_, List.pairwise_cons.2 hm⟩
      intro c hc
      rcases List.mem_cons.1 hc with rfl | hc
      · exact hlt
      · exact Nat.lt_trans hlt (hm.1 c hc)
    · refine List.pairwise_cons.2 ⟨?_, ih (fun c hc => h c (by simp [hc])) hm.2⟩
      intro c hc
      rcases (Memory.mem_insert rest a v c).1 hc with rfl | hc
      · show x < a
        omega
      · exact hm.1 c hc

theorem Memory.mem_write {m : Memory} {a : Nat} {v : Byte} {c : Host.Cell} (h : c ∈ m.write a v) :
    c.1 = a ∨ c ∈ m := by
  unfold Memory.write at h
  split at h
  · exact .inr (List.mem_of_mem_filter h)
  · rcases (Memory.mem_insert _ _ _ _).1 h with rfl | h
    · exact .inl rfl
    · exact .inr (List.mem_of_mem_filter h)

theorem Memory.wf_nil : Memory.wf [] := by simp [Memory.wf]

/-- A write keeps the canonical form. -/
theorem Memory.wf_write {m : Memory} (a : Nat) (v : Byte) (h : Memory.wf m) : Memory.wf (m.write a v) := by
  have hs : (m.filter (fun c => c.1 != a)).Pairwise (fun c d => c.1 < d.1) := h.1.filter _
  have hv : ∀ c ∈ m.filter (fun c => c.1 != a), c.2 ≠ unlistedByte :=
    fun c hc => h.2 c (List.mem_of_mem_filter hc)
  unfold Memory.write
  split
  · exact ⟨hs, hv⟩
  · rename_i hne
    refine ⟨Memory.insert_sorted _ _ _ (by simp) hs, ?_⟩
    intro c hc
    rcases (Memory.mem_insert _ _ _ _).1 hc with rfl | hc
    · exact hne
    · exact hv c hc

/-- A run of writes keeps the canonical form. -/
theorem Memory.wf_writeBytes (bs : List Byte) : ∀ {m : Memory} (i : Nat), Memory.wf m →
    Memory.wf (m.writeBytes i bs) := by
  induction bs with
  | nil => intro m i h; exact h
  | cons b bs ih => intro m i h; exact ih (i + 1) (Memory.wf_write i b h)

/-- A run of writes lists no address outside the run that was not listed before. -/
theorem Memory.mem_writeBytes (bs : List Byte) : ∀ {m : Memory} {i : Nat} {c : Host.Cell},
    c ∈ m.writeBytes i bs → (i ≤ c.1 ∧ c.1 < i + bs.length) ∨ c ∈ m := by
  induction bs with
  | nil => intro m i c h; exact .inr h
  | cons b bs ih =>
    intro m i c h
    simp only [Memory.writeBytes] at h
    rcases ih h with h | h
    · left; simp only [List.length_cons]; omega
    · rcases Memory.mem_write h with h | h
      · left; simp only [List.length_cons]; omega
      · exact .inr h

end Sys2Proof.Machine
end

