-- ==== Sys2Proof/Laws/Decode.lean ====
section
/-! SUPPORT. Laws of the byte order (R34), of the value checks (R67) and of the request buffer as the
decoder reads it. -/

namespace Sys2Proof.Machine

theorem be16_toNat (h l : Byte) : (be16 h l).toNat = h.toNat * 256 + l.toNat := by
  unfold be16
  rw [BitVec.toNat_append, ← Nat.shiftLeft_add_eq_or_of_lt l.isLt, Nat.shiftLeft_eq]

theorem hiByte_toNat (v : Word) : (hiByte v).toNat = v.toNat / 256 := by
  have := v.isLt
  simp only [hiByte, BitVec.extractLsb'_toNat, Nat.shiftRight_eq_div_pow]
  omega

theorem loByte_toNat (v : Word) : (loByte v).toNat = v.toNat % 256 := by
  simp [loByte, BitVec.extractLsb'_toNat]

@[simp] theorem be16_hi_lo (v : Word) : be16 (hiByte v) (loByte v) = v := by
  apply BitVec.eq_of_toNat_eq
  rw [be16_toNat, hiByte_toNat, loByte_toNat]
  omega

@[simp] theorem hiByte_be16 (h l : Byte) : hiByte (be16 h l) = h := by
  apply BitVec.eq_of_toNat_eq
  have := l.isLt
  rw [hiByte_toNat, be16_toNat]
  omega

@[simp] theorem loByte_be16 (h l : Byte) : loByte (be16 h l) = l := by
  apply BitVec.eq_of_toNat_eq
  have := l.isLt
  rw [loByte_toNat, be16_toNat]
  omega

theorem regCountOk_iff (count : Word) : regCountOk count = true ↔ 1 ≤ count.toNat ∧ count.toNat ≤ 125 := by
  simp [regCountOk]

theorem bitCountOk_iff (count : Word) : bitCountOk count = true ↔ 1 ≤ count.toNat ∧ count.toNat ≤ 2000 := by
  simp [bitCountOk]

theorem coilValueOk_iff (value : Word) : coilValueOk value = true ↔ value = 0xFF00#16 ∨ value = 0x0000#16 := by
  simp [coilValueOk, Config.coilOn, Config.coilOff]

theorem wmrValueOk_iff (count : Word) (bc : Byte) :
    wmrValueOk count bc = true ↔ 1 ≤ count.toNat ∧ count.toNat ≤ 123 ∧ bc.toNat = 2 * count.toNat := by
  simp [wmrValueOk, and_assoc]

theorem wmcValueOk_iff (count : Word) (bc : Byte) :
    wmcValueOk count bc = true ↔ 1 ≤ count.toNat ∧ count.toNat ≤ 1968 ∧ bc.toNat = (count.toNat + 7) / 8 := by
  simp only [wmcValueOk, Bool.and_eq_true, decide_eq_true_eq, and_assoc]
  exact Iff.rfl

/-- `flat` is plain addition for every sum the block forms when `ADDR_W` is at least 17 (R40, R49). -/
theorem flat_eq {addrW : Nat} (hw : 17 ≤ addrW) (kind : Kind) {off : Nat} (h : off ≤ 65535 + 1999) :
    flat addrW kind off = off + kindBase kind := by
  have hb : kindBase kind ≤ 40001 := by cases kind <;> decide
  have hp : 2 ^ 17 ≤ 2 ^ addrW := Nat.pow_le_pow_right (by decide) hw
  exact Nat.mod_eq_of_lt (by omega)

/-- Within one kind, distinct sums less than `2^16` apart are distinct addresses (R116): so are the items
of any range. -/
theorem flat_injective {addrW : Nat} (hw : 16 ≤ addrW) (kind : Kind) {m n : Nat} (hm : m < n + 2 ^ 16)
    (hn : n < m + 2 ^ 16) (h : flat addrW kind m = flat addrW kind n) : m = n := by
  have hd : 2 ^ 16 ∣ 2 ^ addrW := Nat.pow_dvd_pow 2 hw
  have hmod : (m + kindBase kind) % 2 ^ 16 = (n + kindBase kind) % 2 ^ 16 := by
    rw [← Nat.mod_mod_of_dvd _ hd, ← Nat.mod_mod_of_dvd (n + kindBase kind) hd]
    exact congrArg (· % 2 ^ 16) h
  omega

/-- An accepted PDU reads as its bytes, and as free bytes beyond its end (R17). -/
theorem reqByte_acceptPdu (s : State) (bytes : List Byte) (rest : List Input) (i : Nat) :
    (s.acceptPdu bytes rest).reqByte i =
      if i < bytes.length then bytes.getD i 0#8 else Config.freeReqByte (s.pduDraws + 1) i := by
  unfold State.reqByte State.acceptPdu
  simp only
  split
  · rename_i h
    rw [Memory.read_writeBytes, if_pos (by omega)]
    simp
  · rfl

end Sys2Proof.Machine

namespace Sys2Proof

open Machine

/-- Everything the decoder can answer (R59): one of the eight function codes with its fields, or
nothing. -/
theorem decodeAt_cases (b : Nat → Byte) :
    (b 0 = 0x03#8 ∧ decodeAt b = some (.rhr (fieldAt b 1) (fieldAt b 3))) ∨
    (b 0 = 0x06#8 ∧ decodeAt b = some (.wsr (fieldAt b 1) (fieldAt b 3))) ∨
    (b 0 = 0x10#8 ∧ decodeAt b = some (.wmr (fieldAt b 1) (fieldAt b 3) (b 5)
      (payloadAt b (wmrValueOk (fieldAt b 3) (b 5)) (b 5)))) ∨
    (b 0 = 0x01#8 ∧ decodeAt b = some (.rc (fieldAt b 1) (fieldAt b 3))) ∨
    (b 0 = 0x02#8 ∧ decodeAt b = some (.rdi (fieldAt b 1) (fieldAt b 3))) ∨
    (b 0 = 0x04#8 ∧ decodeAt b = some (.rir (fieldAt b 1) (fieldAt b 3))) ∨
    (b 0 = 0x05#8 ∧ decodeAt b = some (.wsc (fieldAt b 1) (fieldAt b 3))) ∨
    (b 0 = 0x0F#8 ∧ decodeAt b = some (.wmc (fieldAt b 1) (fieldAt b 3) (b 5)
      (payloadAt b (wmcValueOk (fieldAt b 3) (b 5)) (b 5)))) ∨
    (b 0 ∉ [0x01#8, 0x02#8, 0x03#8, 0x04#8, 0x05#8, 0x06#8, 0x0F#8, 0x10#8] ∧ decodeAt b = none) := by
  simp only [decodeAt, Config.fcReadHregs, Config.fcWriteHreg, Config.fcWriteHregs, Config.fcReadCoils,
    Config.fcReadDinputs, Config.fcReadIregs, Config.fcWriteCoil, Config.fcWriteCoils]
  by_cases h03 : b 0 = 0x03#8
  · exact .inl ⟨h03, by simp [h03]⟩
  by_cases h06 : b 0 = 0x06#8
  · exact .inr (.inl ⟨h06, by simp [h06]⟩)
  by_cases h10 : b 0 = 0x10#8
  · exact .inr (.inr (.inl ⟨h10, by simp [h10]⟩))
  by_cases h01 : b 0 = 0x01#8
  · exact .inr (.inr (.inr (.inl ⟨h01, by simp [h01]⟩)))
  by_cases h02 : b 0 = 0x02#8
  · exact .inr (.inr (.inr (.inr (.inl ⟨h02, by simp [h02]⟩))))
  by_cases h04 : b 0 = 0x04#8
  · exact .inr (.inr (.inr (.inr (.inr (.inl ⟨h04, by simp [h04]⟩)))))
  by_cases h05 : b 0 = 0x05#8
  · exact .inr (.inr (.inr (.inr (.inr (.inr (.inl ⟨h05, by simp [h05]⟩))))))
  by_cases h0F : b 0 = 0x0F#8
  · exact .inr (.inr (.inr (.inr (.inr (.inr (.inr (.inl ⟨h0F, by simp [h0F]⟩)))))))
  exact .inr (.inr (.inr (.inr (.inr (.inr (.inr (.inr ⟨by simp [h03, h06, h10, h01, h02, h04, h05, h0F], by simp [h03, h06, h10, h01, h02, h04, h05, h0F]⟩)))))))

@[simp] theorem length_payloadAt (b : Nat → Byte) (ok : Bool) (bc : Byte) :
    (payloadAt b ok bc).length = payloadNeed ok bc := by simp [payloadAt]

/-- What is decoded is well formed: no step ever runs an ill-formed term (log 13). -/
theorem decodeAt_wellFormed {b : Nat → Byte} {i : Instr} (h : decodeAt b = some i) : i.wellFormed = true := by
  rcases decodeAt_cases b with ⟨-, k⟩ | ⟨-, k⟩ | ⟨-, k⟩ | ⟨-, k⟩ | ⟨-, k⟩ | ⟨-, k⟩ | ⟨-, k⟩ | ⟨-, k⟩ | ⟨-, k⟩ <;>
    rw [k] at h <;> cases h <;> simp [Instr.wellFormed]

/-- The function code of what is decoded is byte 0 (R59). -/
theorem decodeAt_fc {b : Nat → Byte} {i : Instr} (h : decodeAt b = some i) : instrFc i = b 0 := by
  rcases decodeAt_cases b with ⟨f, k⟩ | ⟨f, k⟩ | ⟨f, k⟩ | ⟨f, k⟩ | ⟨f, k⟩ | ⟨f, k⟩ | ⟨f, k⟩ | ⟨f, k⟩ | ⟨-, k⟩ <;>
    rw [k] at h <;> cases h <;> rw [f] <;> rfl

end Sys2Proof
end

