-- ==== Sys2Proof/Laws/State.lean ====
section
/-! SUPPORT. What each operation does to each field of the state, one lemma per field, so that no later
proof unfolds a record update. -/

namespace Sys2Proof.Machine

/-! ### R134: taking an exception -/

@[simp] theorem State.raise_store (s : State) (exc : Exc) (fc : Byte) : (s.raise exc fc).store = s.store := rfl
@[simp] theorem State.raise_phase (s : State) (exc : Exc) (fc : Byte) : (s.raise exc fc).phase = s.phase := rfl
@[simp] theorem State.raise_req (s : State) (exc : Exc) (fc : Byte) : (s.raise exc fc).req = s.req := rfl
@[simp] theorem State.raise_reqLen (s : State) (exc : Exc) (fc : Byte) : (s.raise exc fc).reqLen = s.reqLen := rfl
@[simp] theorem State.raise_resp (s : State) (exc : Exc) (fc : Byte) : (s.raise exc fc).resp = s.resp.writeBytes 0 (formatEX fc (excCode exc)) := rfl
@[simp] theorem State.raise_respLen (s : State) (exc : Exc) (fc : Byte) : (s.raise exc fc).respLen = 2 := rfl
@[simp] theorem State.raise_replyMode (s : State) (exc : Exc) (fc : Byte) : (s.raise exc fc).replyMode = .normal := rfl
@[simp] theorem State.raise_hregOnly (s : State) (exc : Exc) (fc : Byte) : (s.raise exc fc).hregOnly = s.hregOnly := rfl
@[simp] theorem State.raise_params (s : State) (exc : Exc) (fc : Byte) : (s.raise exc fc).params = s.params := rfl
@[simp] theorem State.raise_cfgOut (s : State) (exc : Exc) (fc : Byte) : (s.raise exc fc).cfgOut = s.cfgOut := rfl
@[simp] theorem State.raise_hookWait (s : State) (exc : Exc) (fc : Byte) : (s.raise exc fc).hookWait = s.hookWait := rfl
@[simp] theorem State.raise_hookTrace (s : State) (exc : Exc) (fc : Byte) : (s.raise exc fc).hookTrace = s.hookTrace := rfl
@[simp] theorem State.raise_hookScript (s : State) (exc : Exc) (fc : Byte) : (s.raise exc fc).hookScript = s.hookScript := rfl
@[simp] theorem State.raise_inputs (s : State) (exc : Exc) (fc : Byte) : (s.raise exc fc).inputs = s.inputs := rfl
@[simp] theorem State.raise_pduDraws (s : State) (exc : Exc) (fc : Byte) : (s.raise exc fc).pduDraws = s.pduDraws := rfl
@[simp] theorem State.raise_hookDraws (s : State) (exc : Exc) (fc : Byte) : (s.raise exc fc).hookDraws = s.hookDraws := rfl

/-! ### R119: the normal shape -/

@[simp] theorem State.respond_store (s : State) (bytes : List Byte) : (s.respond bytes).store = s.store := rfl
@[simp] theorem State.respond_phase (s : State) (bytes : List Byte) : (s.respond bytes).phase = s.phase := rfl
@[simp] theorem State.respond_req (s : State) (bytes : List Byte) : (s.respond bytes).req = s.req := rfl
@[simp] theorem State.respond_reqLen (s : State) (bytes : List Byte) : (s.respond bytes).reqLen = s.reqLen := rfl
@[simp] theorem State.respond_resp (s : State) (bytes : List Byte) : (s.respond bytes).resp = s.resp.writeBytes 0 bytes := rfl
@[simp] theorem State.respond_respLen (s : State) (bytes : List Byte) : (s.respond bytes).respLen = s.respLen := rfl
@[simp] theorem State.respond_replyMode (s : State) (bytes : List Byte) : (s.respond bytes).replyMode = .normal := rfl
@[simp] theorem State.respond_hregOnly (s : State) (bytes : List Byte) : (s.respond bytes).hregOnly = s.hregOnly := rfl
@[simp] theorem State.respond_params (s : State) (bytes : List Byte) : (s.respond bytes).params = s.params := rfl
@[simp] theorem State.respond_cfgOut (s : State) (bytes : List Byte) : (s.respond bytes).cfgOut = s.cfgOut := rfl
@[simp] theorem State.respond_hookWait (s : State) (bytes : List Byte) : (s.respond bytes).hookWait = s.hookWait := rfl
@[simp] theorem State.respond_hookTrace (s : State) (bytes : List Byte) : (s.respond bytes).hookTrace = s.hookTrace := rfl
@[simp] theorem State.respond_hookScript (s : State) (bytes : List Byte) : (s.respond bytes).hookScript = s.hookScript := rfl
@[simp] theorem State.respond_inputs (s : State) (bytes : List Byte) : (s.respond bytes).inputs = s.inputs := rfl
@[simp] theorem State.respond_pduDraws (s : State) (bytes : List Byte) : (s.respond bytes).pduDraws = s.pduDraws := rfl
@[simp] theorem State.respond_hookDraws (s : State) (bytes : List Byte) : (s.respond bytes).hookDraws = s.hookDraws := rfl

/-! ### R120: the echo shape -/

@[simp] theorem State.echo_store (s : State) : (s.echo).store = s.store := rfl
@[simp] theorem State.echo_phase (s : State) : (s.echo).phase = s.phase := rfl
@[simp] theorem State.echo_req (s : State) : (s.echo).req = s.req := rfl
@[simp] theorem State.echo_reqLen (s : State) : (s.echo).reqLen = s.reqLen := rfl
@[simp] theorem State.echo_resp (s : State) : (s.echo).resp = s.resp := rfl
@[simp] theorem State.echo_respLen (s : State) : (s.echo).respLen = s.respLen := rfl
@[simp] theorem State.echo_replyMode (s : State) : (s.echo).replyMode = .echo := rfl
@[simp] theorem State.echo_hregOnly (s : State) : (s.echo).hregOnly = s.hregOnly := rfl
@[simp] theorem State.echo_params (s : State) : (s.echo).params = s.params := rfl
@[simp] theorem State.echo_cfgOut (s : State) : (s.echo).cfgOut = s.cfgOut := rfl
@[simp] theorem State.echo_hookWait (s : State) : (s.echo).hookWait = s.hookWait := rfl
@[simp] theorem State.echo_hookTrace (s : State) : (s.echo).hookTrace = s.hookTrace := rfl
@[simp] theorem State.echo_hookScript (s : State) : (s.echo).hookScript = s.hookScript := rfl
@[simp] theorem State.echo_inputs (s : State) : (s.echo).inputs = s.inputs := rfl
@[simp] theorem State.echo_pduDraws (s : State) : (s.echo).pduDraws = s.pduDraws := rfl
@[simp] theorem State.echo_hookDraws (s : State) : (s.echo).hookDraws = s.hookDraws := rfl

/-! ### R85: acceptance of a PDU -/

@[simp] theorem State.acceptPdu_store (s : State) (bytes : List Byte) (rest : List Input) : (s.acceptPdu bytes rest).store = s.store := rfl
@[simp] theorem State.acceptPdu_phase (s : State) (bytes : List Byte) (rest : List Input) : (s.acceptPdu bytes rest).phase = .processing := rfl
@[simp] theorem State.acceptPdu_req (s : State) (bytes : List Byte) (rest : List Input) : (s.acceptPdu bytes rest).req = Memory.writeBytes [] 0 bytes := rfl
@[simp] theorem State.acceptPdu_reqLen (s : State) (bytes : List Byte) (rest : List Input) : (s.acceptPdu bytes rest).reqLen = bytes.length := rfl
@[simp] theorem State.acceptPdu_resp (s : State) (bytes : List Byte) (rest : List Input) : (s.acceptPdu bytes rest).resp = s.resp := rfl
@[simp] theorem State.acceptPdu_respLen (s : State) (bytes : List Byte) (rest : List Input) : (s.acceptPdu bytes rest).respLen = 0 := rfl
@[simp] theorem State.acceptPdu_replyMode (s : State) (bytes : List Byte) (rest : List Input) : (s.acceptPdu bytes rest).replyMode = s.replyMode := rfl
@[simp] theorem State.acceptPdu_hregOnly (s : State) (bytes : List Byte) (rest : List Input) : (s.acceptPdu bytes rest).hregOnly = s.hregOnly := rfl
@[simp] theorem State.acceptPdu_params (s : State) (bytes : List Byte) (rest : List Input) : (s.acceptPdu bytes rest).params = s.params := rfl
@[simp] theorem State.acceptPdu_cfgOut (s : State) (bytes : List Byte) (rest : List Input) : (s.acceptPdu bytes rest).cfgOut = s.cfgOut := rfl
@[simp] theorem State.acceptPdu_hookWait (s : State) (bytes : List Byte) (rest : List Input) : (s.acceptPdu bytes rest).hookWait = s.hookWait := rfl
@[simp] theorem State.acceptPdu_hookTrace (s : State) (bytes : List Byte) (rest : List Input) : (s.acceptPdu bytes rest).hookTrace = s.hookTrace := rfl
@[simp] theorem State.acceptPdu_hookScript (s : State) (bytes : List Byte) (rest : List Input) : (s.acceptPdu bytes rest).hookScript = s.hookScript := rfl
@[simp] theorem State.acceptPdu_inputs (s : State) (bytes : List Byte) (rest : List Input) : (s.acceptPdu bytes rest).inputs = rest := rfl
@[simp] theorem State.acceptPdu_pduDraws (s : State) (bytes : List Byte) (rest : List Input) : (s.acceptPdu bytes rest).pduDraws = s.pduDraws + 1 := rfl
@[simp] theorem State.acceptPdu_hookDraws (s : State) (bytes : List Byte) (rest : List Input) : (s.acceptPdu bytes rest).hookDraws = s.hookDraws := rfl

/-! ### R145: reset -/

@[simp] theorem State.resetBy_store (s : State) (strap : Bool) : (s.resetBy strap).store = [] := rfl
@[simp] theorem State.resetBy_phase (s : State) (strap : Bool) : (s.resetBy strap).phase = .idle := rfl
@[simp] theorem State.resetBy_req (s : State) (strap : Bool) : (s.resetBy strap).req = [] := rfl
@[simp] theorem State.resetBy_reqLen (s : State) (strap : Bool) : (s.resetBy strap).reqLen = 0 := rfl
@[simp] theorem State.resetBy_resp (s : State) (strap : Bool) : (s.resetBy strap).resp = [] := rfl
@[simp] theorem State.resetBy_respLen (s : State) (strap : Bool) : (s.resetBy strap).respLen = 0 := rfl
@[simp] theorem State.resetBy_replyMode (s : State) (strap : Bool) : (s.resetBy strap).replyMode = .suppressed := rfl
@[simp] theorem State.resetBy_hregOnly (s : State) (strap : Bool) : (s.resetBy strap).hregOnly = strap := rfl
@[simp] theorem State.resetBy_params (s : State) (strap : Bool) : (s.resetBy strap).params = s.params := rfl
@[simp] theorem State.resetBy_cfgOut (s : State) (strap : Bool) : (s.resetBy strap).cfgOut = none := rfl
@[simp] theorem State.resetBy_hookWait (s : State) (strap : Bool) : (s.resetBy strap).hookWait = none := rfl
@[simp] theorem State.resetBy_hookTrace (s : State) (strap : Bool) : (s.resetBy strap).hookTrace = s.hookTrace := rfl
@[simp] theorem State.resetBy_hookScript (s : State) (strap : Bool) : (s.resetBy strap).hookScript = s.hookScript := rfl
@[simp] theorem State.resetBy_inputs (s : State) (strap : Bool) : (s.resetBy strap).inputs = s.inputs := rfl
@[simp] theorem State.resetBy_pduDraws (s : State) (strap : Bool) : (s.resetBy strap).pduDraws = s.pduDraws := rfl
@[simp] theorem State.resetBy_hookDraws (s : State) (strap : Bool) : (s.resetBy strap).hookDraws = s.hookDraws := rfl

/-! ### R92: the end of a transaction -/

@[simp] theorem State.endTransaction_store (s : State) : s.endTransaction.store = s.store := by
  unfold State.endTransaction; split <;> rfl
@[simp] theorem State.endTransaction_req (s : State) : s.endTransaction.req = s.req := by
  unfold State.endTransaction; split <;> rfl
@[simp] theorem State.endTransaction_reqLen (s : State) : s.endTransaction.reqLen = s.reqLen := by
  unfold State.endTransaction; split <;> rfl
@[simp] theorem State.endTransaction_resp (s : State) : s.endTransaction.resp = s.resp := by
  unfold State.endTransaction; split <;> rfl
@[simp] theorem State.endTransaction_respLen (s : State) : s.endTransaction.respLen = s.respLen := by
  unfold State.endTransaction; split <;> rfl
@[simp] theorem State.endTransaction_replyMode (s : State) : s.endTransaction.replyMode = s.replyMode := by
  unfold State.endTransaction; split <;> rfl
@[simp] theorem State.endTransaction_hregOnly (s : State) : s.endTransaction.hregOnly = s.hregOnly := by
  unfold State.endTransaction; split <;> rfl
@[simp] theorem State.endTransaction_params (s : State) : s.endTransaction.params = s.params := by
  unfold State.endTransaction; split <;> rfl
@[simp] theorem State.endTransaction_cfgOut (s : State) : s.endTransaction.cfgOut = s.cfgOut := by
  unfold State.endTransaction; split <;> rfl
@[simp] theorem State.endTransaction_hookWait (s : State) : s.endTransaction.hookWait = s.hookWait := by
  unfold State.endTransaction; split <;> rfl
@[simp] theorem State.endTransaction_hookTrace (s : State) : s.endTransaction.hookTrace = s.hookTrace := by
  unfold State.endTransaction; split <;> rfl
@[simp] theorem State.endTransaction_hookScript (s : State) : s.endTransaction.hookScript = s.hookScript := by
  unfold State.endTransaction; split <;> rfl
@[simp] theorem State.endTransaction_inputs (s : State) : s.endTransaction.inputs = s.inputs := by
  unfold State.endTransaction; split <;> rfl
@[simp] theorem State.endTransaction_pduDraws (s : State) : s.endTransaction.pduDraws = s.pduDraws := by
  unfold State.endTransaction; split <;> rfl
@[simp] theorem State.endTransaction_hookDraws (s : State) : s.endTransaction.hookDraws = s.hookDraws := by
  unfold State.endTransaction; split <;> rfl

/-- The transaction is over: `Idle`. -/
theorem State.endTransaction_idle {s : State} (h : s.hookWait = none) :
    s.endTransaction = { s with phase := .idle } := by simp [State.endTransaction, h]

/-- A hook call is waiting: nothing changes. -/
theorem State.endTransaction_waiting {s : State} (h : s.hookWait ≠ none) : s.endTransaction = s := by
  simp [State.endTransaction, Option.isSome_iff_ne_none, h]

/-! ### `Alloc` (R118) -/

/-- A response that fits is allocated (R118). -/
theorem State.alloc_fits {s : State} {length : Nat} (h : length ≤ s.params.respCap) (fc : Byte)
    (rest : State → State) : s.alloc fc length rest = rest { s with respLen := length } := by
  rw [State.alloc, if_neg (by omega)]

/-- One that does not fit raises `SlaveFailure` (R118, R129). -/
theorem State.alloc_fails {s : State} {length : Nat} (h : s.params.respCap < length) (fc : Byte)
    (rest : State → State) : s.alloc fc length rest = s.raise .slaveFailure fc := by
  rw [State.alloc, if_pos h]

/-! ### The `HREG_ONLY` guard (R87) -/

theorem State.dispatched_off {s : State} (h : s.hregOnly = false) (fc : Byte) (handler : State → State) :
    s.dispatched fc handler = handler s := by simp [State.dispatched, h]

theorem State.dispatched_on {s : State} (h : s.hregOnly = true) (fc : Byte) (handler : State → State) :
    s.dispatched fc handler = s.raise .illegalFunction fc := by simp [State.dispatched, h]

end Sys2Proof.Machine
end

