-- ==== Sys2Proof/Laws/Store.lean ====
section
/-! SUPPORT. Laws of the Register Store: lookup, the change of one value, and registration. -/

namespace Sys2Proof.Machine

@[simp] theorem find_nil (a : Addr) : find [] a = none := rfl

theorem find_cons (e : Entry) (es : List Entry) (a : Addr) :
    find (e :: es) a = if e.address = a then some 0 else (find es a).map (· + 1) := rfl

/-- What a successful lookup finds. -/
theorem find_some {es : List Entry} {a : Addr} {i : Nat} (h : find es a = some i) :
    ∃ e, es[i]? = some e ∧ e.address = a ∧ ∀ j d, j < i → es[j]? = some d → d.address ≠ a := by
  induction es generalizing i with
  | nil => simp at h
  | cons e es ih =>
    rw [find_cons] at h
    split at h
    · rename_i he
      obtain rfl : 0 = i := by simpa using h
      exact ⟨e, by simp, he, by simp⟩
    · rename_i he
      obtain ⟨k, hk, rfl⟩ := Option.map_eq_some_iff.1 h
      obtain ⟨d, hd, ha, hfirst⟩ := ih hk
      refine ⟨d, by simpa using hd, ha, ?_⟩
      intro j c hj hc
      cases j with
      | zero =>
        obtain rfl : e = c := by simpa using hc
        exact he
      | succ j => exact hfirst j c (by omega) (by simpa using hc)

theorem find_none {es : List Entry} {a : Addr} : find es a = none ↔ ∀ e ∈ es, e.address ≠ a := by
  induction es with
  | nil => simp
  | cons e es ih =>
    rw [find_cons]
    split
    · simp_all
    · simp_all

theorem find_lt {es : List Entry} {a : Addr} {i : Nat} (h : find es a = some i) : i < es.length := by
  obtain ⟨e, he, -⟩ := find_some h
  exact (List.getElem?_eq_some_iff.1 he).1

/-- `find` and `lookup` agree. -/
theorem lookup_of_find {es : List Entry} {a : Addr} {i : Nat} (h : find es a = some i) :
    lookup es a = es[i]? := by simp [lookup, h]

theorem lookup_none {es : List Entry} {a : Addr} (h : find es a = none) : lookup es a = none := by
  simp [lookup, h]

/-- Two stores with the same addresses in the same order answer every lookup alike. -/
theorem find_congr {es fs : List Entry} (h : es.map Entry.address = fs.map Entry.address) (a : Addr) :
    find es a = find fs a := by
  induction es generalizing fs with
  | nil => cases fs <;> simp_all
  | cons e es ih =>
    cases fs with
    | nil => simp at h
    | cons f fs =>
      simp only [List.map_cons, List.cons.injEq] at h
      rw [find_cons, find_cons, h.1, ih h.2]

/-- An entry appended behind a present address is never found (R12). -/
theorem find_append {es : List Entry} {a : Addr} {i : Nat} (h : find es a = some i) (fs : List Entry) :
    find (es ++ fs) a = some i := by
  induction es generalizing i with
  | nil => simp at h
  | cons e es ih =>
    rw [find_cons] at h
    rw [List.cons_append, find_cons]
    split at h
    · simp_all
    · rename_i he
      obtain ⟨k, hk, rfl⟩ := Option.map_eq_some_iff.1 h
      simp [he, ih hk]

theorem getElem?_setValueAt (es : List Entry) (i : Nat) (v : Word) (j : Nat) :
    (setValueAt es i v)[j]? = es[j]?.map (fun e => if j = i then { e with value := v } else e) := by
  induction es generalizing i j with
  | nil => simp [setValueAt]
  | cons e es ih =>
    cases i with
    | zero => cases j <;> simp [setValueAt]
    | succ i => cases j <;> simp [setValueAt, ih]

@[simp] theorem length_setValueAt (es : List Entry) (i : Nat) (v : Word) :
    (setValueAt es i v).length = es.length := by
  induction es generalizing i with
  | nil => rfl
  | cons e es ih => cases i <;> simp [setValueAt, ih]

/-- A change of value changes no address and no hook, and no order (R10). -/
theorem map_setValueAt {α : Type} (f : Entry → α) (hf : ∀ e v, f { e with value := v } = f e)
    (es : List Entry) (i : Nat) (v : Word) : (setValueAt es i v).map f = es.map f := by
  induction es generalizing i with
  | nil => rfl
  | cons e es ih => cases i <;> simp [setValueAt, hf, ih]

@[simp] theorem find_setValueAt (es : List Entry) (i : Nat) (v : Word) (a : Addr) :
    find (setValueAt es i v) a = find es a :=
  find_congr (map_setValueAt Entry.address (fun _ _ => rfl) es i v) a

/-- Read after a write of the same register, and of every other one. -/
theorem lookup_setValueAt {es : List Entry} {a : Addr} {i : Nat} (h : find es a = some i) (v : Word)
    (b : Addr) :
    lookup (setValueAt es i v) b =
      (lookup es b).map (fun e => if b = a then { e with value := v } else e) := by
  unfold lookup
  rw [find_setValueAt]
  cases hb : find es b with
  | none => rfl
  | some j =>
    simp only [Option.bind_some, getElem?_setValueAt]
    obtain ⟨e, he, hea, -⟩ := find_some hb
    obtain ⟨d, hd, hda, -⟩ := find_some h
    by_cases hab : b = a
    · subst hab
      obtain rfl : i = j := by simpa [h] using hb
      simp
    · have hij : j ≠ i := by
        rintro rfl
        rw [hd] at he
        cases he
        exact hab (hea.symm.trans hda)
      simp [hij, hab]

/-- What the registers read as after a change of one value. -/
theorem valueAt_setValueAt {es : List Entry} {a : Addr} {i : Nat} (h : find es a = some i) (v : Word)
    (b : Addr) : valueAt (setValueAt es i v) b = if b = a then v else valueAt es b := by
  unfold valueAt
  rw [lookup_setValueAt h]
  obtain ⟨e, he, -⟩ := find_some h
  by_cases hb : b = a
  · subst hb
    simp [lookup_of_find h, he]
  · cases lookup es b <;> simp [hb]

theorem valueAt_of_find {es : List Entry} {a : Addr} {i : Nat} {e : Entry} (h : find es a = some i)
    (he : es[i]? = some e) : valueAt es a = e.value := by
  simp [valueAt, lookup_of_find h, he]

theorem valueAt_none {es : List Entry} {a : Addr} (h : find es a = none) : valueAt es a = 0x0000#16 := by
  simp [valueAt, lookup_none h]

/-- `x` and the mapper read nothing but the store (R75). -/
@[simp] theorem State.x_eq (s : State) (a : Addr) : s.x a = valueAt s.store a := rfl

@[simp] theorem State.kindRead_eq (s : State) (kind : Kind) (off : Nat) :
    s.kindRead kind off = valueAt s.store (s.addrOf kind off) := rfl

@[simp] theorem State.kindWrite_eq (s : State) (kind : Kind) (off : Nat) (v : Word) (src : Byte) :
    s.kindWrite kind off v src = s.storeWrite (s.addrOf kind off) v src := rfl

end Sys2Proof.Machine
end

