-- ==== Sys2Proof/Laws/Ops.lean ====
section
/-! SUPPORT. Once for each shared operation, everything it can do: the hook call, the write path, the
range check and the writes of a range. -/

namespace Sys2Proof.Machine

/-- What an answered hook call leaves: the answer `w` is recorded, and it was the next of the script or a
free one. -/
def HookAnswered (s t : State) (c : HookCall) (w : Word) : Prop :=
  (s.hookScript = .answer w :: t.hookScript ∧ t.hookDraws = s.hookDraws ∨
    s.hookScript = [] ∧ t.hookScript = [] ∧ t.hookDraws = s.hookDraws + 1 ∧
      w = Config.freeHookAnswer s.hookDraws c.hookId c.address c.proposed c.src) ∧
  t = { s with hookTrace := s.hookTrace ++ [⟨c, w⟩], hookScript := t.hookScript, hookDraws := t.hookDraws }

/-- Everything a hook call can do (R74, R149). -/
theorem callHook_cases (s : State) (c : HookCall) :
    (∃ w t, s.callHook c = (some w, t) ∧ HookAnswered s t c w ∧ ∀ rest, s.hookScript ≠ .never :: rest) ∨
    (∃ rest, s.hookScript = .never :: rest ∧
      s.callHook c = (none, { s with hookScript := rest, hookWait := some c })) := by
  unfold State.callHook
  split
  · rename_i v rest h
    exact .inl ⟨_, _, rfl, ⟨.inl ⟨h, rfl⟩, rfl⟩, by simp [h]⟩
  · rename_i rest h
    exact .inr ⟨rest, h, rfl⟩
  · rename_i h
    exact .inl ⟨_, _, rfl, ⟨.inr ⟨h, h, rfl, rfl⟩, by simp [h]⟩, by simp [h]⟩

/-- Everything a write can do (R73). -/
theorem storeWrite_cases (s : State) (a : Addr) (v : Word) (src : Byte) :
    (find s.store a = none ∧ s.storeWrite a v src = (.absent, s)) ∨
    ∃ i e, find s.store a = some i ∧ s.store[i]? = some e ∧
      ((e.hookEn = false ∧ s.storeWrite a v src = (.ok, { s with store := setValueAt s.store i v })) ∨
       (e.hookEn = true ∧ ∃ w t, HookAnswered s t ⟨e.hookId, a, v, src⟩ w ∧
          (∀ rest, s.hookScript ≠ .never :: rest) ∧
          s.storeWrite a v src = (.ok, { t with store := setValueAt s.store i w })) ∨
       (e.hookEn = true ∧ ∃ rest, s.hookScript = .never :: rest ∧
          s.storeWrite a v src =
            (.waiting, { s with hookScript := rest, hookWait := some ⟨e.hookId, a, v, src⟩ }))) := by
  cases hf : find s.store a with
  | none => exact .inl ⟨rfl, by simp [State.storeWrite, hf]⟩
  | some i =>
    obtain ⟨e, he, -⟩ := find_some hf
    refine .inr ⟨i, e, rfl, he, ?_⟩
    have hl : lookup s.store a = some e := by rw [lookup_of_find hf, he]
    cases hh : e.hookEn with
    | false => exact .inl ⟨rfl, by simp [State.storeWrite, hf, hl, hh]⟩
    | true =>
      right
      rcases callHook_cases s ⟨e.hookId, a, v, src⟩ with ⟨w, t, hc, ht, hn⟩ | ⟨rest, hs, hc⟩
      · refine .inl ⟨rfl, w, t, ht, hn, ?_⟩
        have : t.store = s.store := by rw [ht.2]
        simp [State.storeWrite, hf, hl, hh, hc, this]
      · exact .inr ⟨rfl, rest, hs, by simp [State.storeWrite, hf, hl, hh, hc]⟩

/-- What a write may touch: one value of the store, and the hook port. Every field but these is as it
was, and so is every address, every hook and their order (R10). -/
structure WriteFrame (s t : State) : Prop where
  fixed : t.store.map Entry.address = s.store.map Entry.address
  hooks : t.store.map (fun e => (e.address, e.hookEn, e.hookId)) =
    s.store.map (fun e => (e.address, e.hookEn, e.hookId))
  rest : t = { s with
    store := t.store, hookWait := t.hookWait, hookTrace := t.hookTrace,
    hookScript := t.hookScript, hookDraws := t.hookDraws }

/-- A write leaves the parameters, and so every flat address, as they were. -/
theorem WriteFrame.params {s t : State} (h : WriteFrame s t) : t.params = s.params := by rw [h.rest]

theorem WriteFrame.refl (s : State) : WriteFrame s s := ⟨rfl, rfl, rfl⟩

theorem WriteFrame.trans {s t u : State} (h : WriteFrame s t) (k : WriteFrame t u) : WriteFrame s u := by
  refine ⟨k.fixed.trans h.fixed, k.hooks.trans h.hooks, ?_⟩
  obtain ⟨-, -, hr⟩ := h
  obtain ⟨-, -, kr⟩ := k
  rw [hr] at kr
  exact kr

/-- A write that does not wait leaves no call waiting; one that waits leaves its own. -/
theorem storeWrite_frame (s : State) (a : Addr) (v : Word) (src : Byte) :
    WriteFrame s (s.storeWrite a v src).2 ∧
      ((s.storeWrite a v src).1 = .waiting →
        (s.storeWrite a v src).2.hookWait ≠ none ∧ HookReply.never ∈ s.hookScript) ∧
      ((s.storeWrite a v src).1 ≠ .waiting → (s.storeWrite a v src).2.hookWait = s.hookWait) ∧
      (s.storeWrite a v src).2.hookScript <:+ s.hookScript := by
  rcases storeWrite_cases s a v src with ⟨-, h⟩ | ⟨i, e, hf, he, ⟨-, h⟩ | ⟨-, w, t, ht, -, h⟩ | ⟨-, rest, hs, h⟩⟩ <;> rw [h]
  · exact ⟨WriteFrame.refl s, by simp, by simp, List.suffix_refl _⟩
  · refine ⟨⟨?_, ?_, rfl⟩, by simp, by simp, List.suffix_refl _⟩
    · exact map_setValueAt _ (fun _ _ => rfl) _ _ _
    · exact map_setValueAt _ (fun _ _ => rfl) _ _ _
  · obtain ⟨hsc, ht⟩ := ht
    refine ⟨⟨?_, ?_, ?_⟩, by simp, ?_, ?_⟩
    · exact map_setValueAt _ (fun _ _ => rfl) _ _ _
    · exact map_setValueAt _ (fun _ _ => rfl) _ _ _
    · rw [ht]
    · intro _; rw [ht]
    · rcases hsc with ⟨hsc, -⟩ | ⟨hsc, hsc', -, -⟩
      · simp [hsc]
      · simp [hsc, hsc']
  · exact ⟨⟨rfl, rfl, rfl⟩, by simp [hs], by simp, by simp [hs]⟩

/-- The range check (R112, R127) is about every address of the range. -/
theorem rangeExists_iff (s : State) (kind : Kind) (start count : Nat) :
    s.rangeExists kind start count = true ↔
      ∀ k, k < count → ∃ i, find s.store (s.addrOf kind (start + k)) = some i := by
  simp [State.rangeExists, State.kindExists, Option.isSome_iff_exists]

/-- The writes of a range keep the frame of a write, and wait exactly when they say so. -/
theorem writeItems_frame (kind : Kind) (start : Nat) (src : Byte) (vs : List Word) :
    ∀ (k : Nat) (s : State),
      WriteFrame s (State.writeItems kind start src vs k s).2 ∧
        ((State.writeItems kind start src vs k s).1 = .waiting →
          (State.writeItems kind start src vs k s).2.hookWait ≠ none ∧ HookReply.never ∈ s.hookScript) ∧
        ((State.writeItems kind start src vs k s).1 ≠ .waiting →
          (State.writeItems kind start src vs k s).2.hookWait = s.hookWait) ∧
        (State.writeItems kind start src vs k s).2.hookScript <:+ s.hookScript := by
  induction vs with
  | nil => intro k s; exact ⟨WriteFrame.refl s, by simp [State.writeItems], by simp [State.writeItems], by simp [State.writeItems]⟩
  | cons v vs ih =>
    intro k s
    have hw := storeWrite_frame s (s.addrOf kind (start + k)) v src
    unfold State.writeItems State.kindWrite
    rcases hr : s.storeWrite (s.addrOf kind (start + k)) v src with ⟨st, t⟩
    rw [hr] at hw
    cases st with
    | ok =>
      obtain ⟨hf, h1, h2, h3⟩ := ih (k + 1) t
      exact ⟨hw.1.trans hf, fun h => ⟨(h1 h).1, hw.2.2.2.subset (h1 h).2⟩,
        fun h => (h2 h).trans (hw.2.2.1 (by simp)), h3.trans hw.2.2.2⟩
    | absent => exact hw
    | waiting => exact hw

/-- Over an existing range no write reports `absent` (R112). -/
theorem writeItems_present (kind : Kind) (start : Nat) (src : Byte) (vs : List Word) :
    ∀ (k : Nat) (s : State),
      (∀ j, k ≤ j → j < k + vs.length → ∃ i, find s.store (s.addrOf kind (start + j)) = some i) →
      (State.writeItems kind start src vs k s).1 ≠ .absent := by
  induction vs with
  | nil => intro k s _; simp [State.writeItems]
  | cons v vs ih =>
    intro k s h
    have hw := storeWrite_frame s (s.addrOf kind (start + k)) v src
    have hc := storeWrite_cases s (s.addrOf kind (start + k)) v src
    obtain ⟨i, hi⟩ := h k (Nat.le_refl k) (by simp)
    unfold State.writeItems State.kindWrite
    rcases hr : s.storeWrite (s.addrOf kind (start + k)) v src with ⟨st, t⟩
    rw [hr] at hw hc
    cases st with
    | ok =>
      refine ih (k + 1) t fun j hj hj' => ?_
      rw [find_congr hw.1.fixed, State.addrOf, hw.1.params]
      exact h j (by omega) (by simp only [List.length_cons]; omega)
    | absent => simp_all
    | waiting => simp

end Sys2Proof.Machine
end

