-- ==== Sys2Proof/Laws/Handlers.lean ====
section
/-! SUPPORT. What each handler does, case by case, and once for all of them what a handler can do. -/

namespace Sys2Proof.Machine

/-! ### Lengths of the response formats (R54 to R56, R67) -/

theorem length_flatMap_pairs (v : Nat → Word) (l : List Nat) :
    (l.flatMap (fun k => be16Bytes (v k))).length = 2 * l.length := by
  induction l with
  | nil => rfl
  | cons k l ih =>
    rw [List.flatMap_cons, List.length_append, ih, List.length_cons]
    show 2 + 2 * l.length = 2 * (l.length + 1)
    omega

@[simp] theorem length_formatRR (fc : Byte) (v : Nat → Word) (count : Nat) :
    (formatRR fc v count).length = 2 + 2 * count := by
  rw [formatRR, List.length_cons, List.length_cons, length_flatMap_pairs, List.length_range]
  omega

@[simp] theorem length_formatRB (fc : Byte) (bit : Nat → Bool) (count : Nat) :
    (formatRB fc bit count).length = 2 + ceilDiv8 count := by
  simp [formatRB]; omega

@[simp] theorem length_formatWR (fc : Byte) (a b : Word) : (formatWR fc a b).length = 5 := rfl

@[simp] theorem length_formatEX (fc code : Byte) : (formatEX fc code).length = 2 := rfl

theorem ceilDiv8_le {n : Nat} (h : n ≤ 2000) : ceilDiv8 n ≤ 250 := by unfold ceilDiv8; omega

/-! ### The reads (R95, R103) -/

theorem readRegs_illegalValue {count : Word} (h : regCountOk count = false) (fc kind start s) :
    readRegs fc kind start count s = s.raise .illegalValue fc := by simp [readRegs, h]

theorem readRegs_illegalAddress {count : Word} (h : regCountOk count = true) {kind : Kind} {start : Word}
    {s : State} (ha : find s.store (s.addrOf kind start.toNat) = none) (fc : Byte) :
    readRegs fc kind start count s = s.raise .illegalAddress fc := by
  simp [readRegs, h, State.kindExists, ha]

theorem readRegs_ok {count : Word} (h : regCountOk count = true) {kind : Kind} {start : Word}
    {s : State} {i : Nat} (ha : find s.store (s.addrOf kind start.toNat) = some i)
    (hc : 2 + 2 * count.toNat ≤ s.params.respCap) (fc : Byte) :
    readRegs fc kind start count s =
      { s with
        resp := s.resp.writeBytes 0
          (formatRR fc (fun k => valueAt s.store (s.addrOf kind (start.toNat + k))) count.toNat)
        respLen := 2 + 2 * count.toNat
        replyMode := .normal } := by
  simp only [readRegs, h, State.kindExists, ha, Bool.not_true, Option.isSome_some, Bool.false_eq_true, if_false]
  rw [State.alloc_fits hc]
  rfl

theorem readRegs_slaveFailure {count : Word} (h : regCountOk count = true) {kind : Kind} {start : Word}
    {s : State} {i : Nat} (ha : find s.store (s.addrOf kind start.toNat) = some i)
    (hc : s.params.respCap < 2 + 2 * count.toNat) (fc : Byte) :
    readRegs fc kind start count s = s.raise .slaveFailure fc := by
  simp only [readRegs, h, State.kindExists, ha, Bool.not_true, Option.isSome_some, Bool.false_eq_true, if_false]
  rw [State.alloc_fails hc]

theorem readBits_illegalValue {count : Word} (h : bitCountOk count = false) (fc kind start s) :
    readBits fc kind start count s = s.raise .illegalValue fc := by simp [readBits, h]

theorem readBits_illegalAddress {count : Word} (h : bitCountOk count = true) {kind : Kind} {start : Word}
    {s : State} (ha : find s.store (s.addrOf kind start.toNat) = none) (fc : Byte) :
    readBits fc kind start count s = s.raise .illegalAddress fc := by
  simp [readBits, h, State.kindExists, ha]

theorem readBits_ok {count : Word} (h : bitCountOk count = true) {kind : Kind} {start : Word}
    {s : State} {i : Nat} (ha : find s.store (s.addrOf kind start.toNat) = some i)
    (hc : 2 + ceilDiv8 count.toNat ≤ s.params.respCap) (fc : Byte) :
    readBits fc kind start count s =
      { s with
        resp := s.resp.writeBytes 0
          (formatRB fc (fun k => bitOf (valueAt s.store (s.addrOf kind (start.toNat + k)))) count.toNat)
        respLen := 2 + ceilDiv8 count.toNat
        replyMode := .normal } := by
  simp only [readBits, h, State.kindExists, ha, Bool.not_true, Option.isSome_some, Bool.false_eq_true, if_false]
  rw [State.alloc_fits hc]
  rfl

theorem readBits_slaveFailure {count : Word} (h : bitCountOk count = true) {kind : Kind} {start : Word}
    {s : State} {i : Nat} (ha : find s.store (s.addrOf kind start.toNat) = some i)
    (hc : s.params.respCap < 2 + ceilDiv8 count.toNat) (fc : Byte) :
    readBits fc kind start count s = s.raise .slaveFailure fc := by
  simp only [readBits, h, State.kindExists, ha, Bool.not_true, Option.isSome_some, Bool.false_eq_true, if_false]
  rw [State.alloc_fails hc]

/-! ### The single writes (R105, R106), by what the write reports -/

theorem writeSingle_absent {s t : State} {kind : Kind} {off value : Word} {fc : Byte}
    (h : s.storeWrite (s.addrOf kind off.toNat) value fc = (.absent, t)) :
    writeSingle fc kind off value s = t.raise .illegalAddress fc := by simp [writeSingle, h]

theorem writeSingle_waiting {s t : State} {kind : Kind} {off value : Word} {fc : Byte}
    (h : s.storeWrite (s.addrOf kind off.toNat) value fc = (.waiting, t)) :
    writeSingle fc kind off value s = t := by simp [writeSingle, h]

/-- The read-back (R107). -/
theorem writeSingle_ok {s t : State} {kind : Kind} {off value : Word} {fc : Byte}
    (h : s.storeWrite (s.addrOf kind off.toNat) value fc = (.ok, t)) :
    writeSingle fc kind off value s =
      if valueAt t.store (s.addrOf kind off.toNat) = value then t.echo else t.raise .slaveFailure fc := by
  have hp : t.params = s.params := by
    have hf := (storeWrite_frame s (s.addrOf kind off.toNat) value fc).1
    rw [h] at hf
    exact hf.params
  unfold writeSingle
  rw [State.kindWrite_eq, h]
  dsimp only
  rw [State.kindRead_eq, State.addrOf, hp]

theorem execWsc_legal {s : State} {off value : Word} (hs : s.hregOnly = false) (hv : coilValueOk value = true) :
    execWsc off value s = .next (writeSingle Config.fcWriteCoil .coil off value s) := by
  simp [execWsc, State.dispatched_off hs, hv]

theorem execWsc_illegal {s : State} {off value : Word} (hs : s.hregOnly = false) (hv : coilValueOk value = false) :
    execWsc off value s = .next (s.raise .illegalValue Config.fcWriteCoil) := by
  simp [execWsc, State.dispatched_off hs, hv]

/-! ### The multi-writes (R110, R111) -/

theorem writeMultiple_illegalValue (fc kind start count values s) :
    writeMultiple fc kind start count false values s = s.raise .illegalValue fc := by simp [writeMultiple]

theorem writeMultiple_illegalAddress {s : State} {kind : Kind} {start count : Word}
    (h : s.rangeExists kind start.toNat count.toNat = false) (fc values) :
    writeMultiple fc kind start count true values s = s.raise .illegalAddress fc := by
  simp [writeMultiple, h]

theorem writeMultiple_ok {s : State} {kind : Kind} {start count : Word}
    (h : s.rangeExists kind start.toNat count.toNat = true) (hc : 5 ≤ s.params.respCap) (fc values) :
    writeMultiple fc kind start count true values s =
      match State.writeItems kind start.toNat fc values 0 { s with respLen := 5 } with
      | (.ok, u) => u.respond (formatWR fc start count)
      | (.waiting, u) => u
      | (.absent, u) => u.raise .illegalAddress fc := by
  simp only [writeMultiple, h, Bool.not_true, Bool.false_eq_true, if_false]
  exact State.alloc_fits hc _ _

theorem writeMultiple_slaveFailure {s : State} {kind : Kind} {start count : Word}
    (h : s.rangeExists kind start.toNat count.toNat = true) (hc : s.params.respCap < 5) (fc values) :
    writeMultiple fc kind start count true values s = s.raise .slaveFailure fc := by
  simp only [writeMultiple, h, Bool.not_true, Bool.false_eq_true, if_false]
  exact State.alloc_fails hc _ _

/-! ### What a handler can do -/

/-- Everything a handler can do to the state. The store keeps its addresses, hooks and order (R10); the
response buffer is written from index 0 on, by an exception's two bytes or inside its capacity; and the handler either waits for a hook
with the mode unwritten (R149), or ends with `Echo` and nothing built, or ends with `Normal` and 2 to 252
bytes (R94, R117). Every other field is as it was. -/
structure HandlerFrame (s t : State) : Prop where
  hooks : t.store.map (fun e => (e.address, e.hookEn, e.hookId)) =
    s.store.map (fun e => (e.address, e.hookEn, e.hookId))
  rest : t = { s with
    store := t.store, resp := t.resp, respLen := t.respLen, replyMode := t.replyMode,
    hookWait := t.hookWait, hookTrace := t.hookTrace, hookScript := t.hookScript, hookDraws := t.hookDraws }
  script : t.hookScript <:+ s.hookScript
  reply :
    (t.hookWait ≠ none ∧ HookReply.never ∈ s.hookScript ∧
      t.replyMode = s.replyMode ∧ t.resp = s.resp ∧
      (t.respLen = s.respLen ∨ t.respLen = 5 ∧ 5 ≤ s.params.respCap)) ∨
    (t.hookWait = s.hookWait ∧ t.replyMode = .echo ∧ t.resp = s.resp ∧ t.respLen = s.respLen) ∨
    (t.hookWait = s.hookWait ∧ t.replyMode = .normal ∧ 2 ≤ t.respLen ∧ t.respLen ≤ 252 ∧
      (t.respLen = 2 ∨ t.respLen ≤ s.params.respCap) ∧
      ∃ bytes, bytes.length = t.respLen ∧ t.resp = s.resp.writeBytes 0 bytes)

/-- An exception (R134). -/
theorem raise_frame (s : State) (exc : Exc) (fc : Byte) : HandlerFrame s (s.raise exc fc) :=
  ⟨rfl, rfl, List.suffix_refl _, .inr (.inr ⟨rfl, rfl, Nat.le_refl 2, by simp, .inl rfl, _, rfl, rfl⟩)⟩

/-- What a write leaves, with an exception on top of it (R135). -/
theorem WriteFrame.raise_frame {s t : State} (h : WriteFrame s t) (hw : t.hookWait = s.hookWait)
    (hs : t.hookScript <:+ s.hookScript) (exc : Exc) (fc : Byte) : HandlerFrame s (t.raise exc fc) := by
  obtain ⟨-, h1, h2⟩ := h
  refine ⟨h1, ?_, hs, .inr (.inr ⟨hw, rfl, Nat.le_refl 2, by simp, .inl rfl, formatEX fc (excCode exc), rfl, ?_⟩)⟩
  · rw [h2]; rfl
  · rw [h2]; rfl

theorem readRegs_frame (fc : Byte) (kind : Kind) (start count : Word) (s : State) :
    HandlerFrame s (readRegs fc kind start count s) := by
  cases hc : regCountOk count with
  | false => rw [readRegs_illegalValue hc]; exact raise_frame _ _ _
  | true =>
    cases ha : find s.store (s.addrOf kind start.toNat) with
    | none => rw [readRegs_illegalAddress hc ha]; exact raise_frame _ _ _
    | some i =>
      by_cases hl : 2 + 2 * count.toNat ≤ s.params.respCap
      · rw [readRegs_ok hc ha hl]
        have := (regCountOk_iff count).1 hc
        refine ⟨rfl, rfl, List.suffix_refl _, .inr (.inr ⟨rfl, rfl, ?_, ?_, .inr hl, _, ?_, rfl⟩)⟩
        · show 2 ≤ 2 + 2 * count.toNat; omega
        · show 2 + 2 * count.toNat ≤ 252; omega
        · simp
      · rw [readRegs_slaveFailure hc ha (by omega)]; exact raise_frame _ _ _

theorem readBits_frame (fc : Byte) (kind : Kind) (start count : Word) (s : State) :
    HandlerFrame s (readBits fc kind start count s) := by
  cases hc : bitCountOk count with
  | false => rw [readBits_illegalValue hc]; exact raise_frame _ _ _
  | true =>
    cases ha : find s.store (s.addrOf kind start.toNat) with
    | none => rw [readBits_illegalAddress hc ha]; exact raise_frame _ _ _
    | some i =>
      by_cases hl : 2 + ceilDiv8 count.toNat ≤ s.params.respCap
      · rw [readBits_ok hc ha hl]
        have := ceilDiv8_le ((bitCountOk_iff count).1 hc).2
        refine ⟨rfl, rfl, List.suffix_refl _, .inr (.inr ⟨rfl, rfl, ?_, ?_, .inr hl, _, ?_, rfl⟩)⟩
        · show 2 ≤ 2 + ceilDiv8 count.toNat; omega
        · show 2 + ceilDiv8 count.toNat ≤ 252; omega
        · simp
      · rw [readBits_slaveFailure hc ha (by omega)]; exact raise_frame _ _ _

theorem writeSingle_frame (fc : Byte) (kind : Kind) (off value : Word) (s : State) :
    HandlerFrame s (writeSingle fc kind off value s) := by
  have h := storeWrite_frame s (s.addrOf kind off.toNat) value fc
  unfold writeSingle State.kindWrite
  rcases hr : s.storeWrite (s.addrOf kind off.toNat) value fc with ⟨st, t⟩
  rw [hr] at h
  obtain ⟨hf, h1, h2, h3⟩ := h
  cases st with
  | absent => exact hf.raise_frame (h2 (by simp)) h3 _ _
  | waiting =>
    have hr := hf.rest
    dsimp only at hr ⊢
    refine ⟨hf.hooks, ?_, h3, .inl ⟨(h1 rfl).1, (h1 rfl).2, ?_, ?_, .inl ?_⟩⟩ <;> rw [hr]
  | ok =>
    simp only
    split
    · have hr := hf.rest
      dsimp only at hr ⊢
      refine ⟨hf.hooks, ?_, h3, .inr (.inl ⟨h2 (by simp), rfl, ?_, ?_⟩)⟩ <;> (rw [hr]; try rfl)
    · exact hf.raise_frame (h2 (by simp)) h3 _ _

theorem writeMultiple_frame (fc : Byte) (kind : Kind) (start count : Word) (ok : Bool) (values : List Word)
    (hlen : values.length = count.toNat) (s : State) :
    HandlerFrame s (writeMultiple fc kind start count ok values s) := by
  cases ok with
  | false => rw [writeMultiple_illegalValue]; exact raise_frame _ _ _
  | true =>
    cases hx : s.rangeExists kind start.toNat count.toNat with
    | false => rw [writeMultiple_illegalAddress hx]; exact raise_frame _ _ _
    | true =>
      by_cases hl : 5 ≤ s.params.respCap
      · rw [writeMultiple_ok hx hl]
        have h := writeItems_frame kind start.toNat fc values 0 { s with respLen := 5 }
        have hp := writeItems_present kind start.toNat fc values 0 { s with respLen := 5 } (by
          intro j _ hj
          exact (rangeExists_iff _ _ _ _).1 hx j (by omega))
        rcases hr : State.writeItems kind start.toNat fc values 0 { s with respLen := 5 } with ⟨st, t⟩
        rw [hr] at h hp
        obtain ⟨hf, h1, h2, h3⟩ := h
        have hr := hf.rest
        cases st with
        | absent => exact absurd rfl hp
        | waiting =>
          dsimp only at hr ⊢
          refine ⟨hf.hooks, ?_, h3, .inl ⟨(h1 rfl).1, (h1 rfl).2, ?_, ?_, .inr ⟨?_, hl⟩⟩⟩ <;> rw [hr]
        | ok =>
          dsimp only at hr ⊢
          refine ⟨hf.hooks, ?_, h3,
            .inr (.inr ⟨h2 (by simp), rfl, ?_, ?_, .inr ?_, formatWR fc start count, ?_, ?_⟩)⟩ <;>
            (rw [hr]; try first | exact hl | rfl | simp)
      · rw [writeMultiple_slaveFailure hx (by omega)]; exact raise_frame _ _ _

theorem dispatched_frame {s : State} {fc : Byte} {handler : State → State}
    (h : HandlerFrame s (handler s)) : HandlerFrame s (s.dispatched fc handler) := by
  cases hh : s.hregOnly with
  | false => rw [State.dispatched_off hh]; exact h
  | true => rw [State.dispatched_on hh]; exact raise_frame _ _ _

/-- Everything an instruction can do: a well-formed one answers a next state inside the frame of a
handler, and an ill-formed one is refused (log 13). -/
theorem exec_cases (i : Instr) (s : State) :
    (i.wellFormed = true ∧ ∃ t, exec i s = .next t ∧ HandlerFrame s t) ∨
    (i.wellFormed = false ∧ exec i s = .refused .illFormedInstr) := by
  cases i with
  | rc start count => exact .inl ⟨rfl, _, rfl, dispatched_frame (readBits_frame _ _ _ _ _)⟩
  | rdi start count => exact .inl ⟨rfl, _, rfl, dispatched_frame (readBits_frame _ _ _ _ _)⟩
  | rhr start count => exact .inl ⟨rfl, _, rfl, readRegs_frame _ _ _ _ _⟩
  | rir start count => exact .inl ⟨rfl, _, rfl, dispatched_frame (readRegs_frame _ _ _ _ _)⟩
  | wsc off value =>
    refine .inl ⟨rfl, _, rfl, dispatched_frame ?_⟩
    split
    · exact raise_frame _ _ _
    · exact writeSingle_frame _ _ _ _ _
  | wsr off value => exact .inl ⟨rfl, _, rfl, writeSingle_frame _ _ _ _ _⟩
  | wmc start count bc payload =>
    cases hw : (Instr.wmc start count bc payload).wellFormed with
    | false => exact .inr ⟨rfl, by simp [exec, execWmc, hw]⟩
    | true =>
      refine .inl ⟨rfl, _, by simp only [exec, execWmc, hw, if_true]; rfl, dispatched_frame ?_⟩
      exact writeMultiple_frame _ _ _ _ _ _ (by simp) _
  | wmr start count bc payload =>
    cases hw : (Instr.wmr start count bc payload).wellFormed with
    | false => exact .inr ⟨rfl, by simp [exec, execWmr, hw]⟩
    | true =>
      refine .inl ⟨rfl, _, by simp only [exec, execWmr, hw, if_true]; rfl, ?_⟩
      exact writeMultiple_frame _ _ _ _ _ _ (by simp) _

end Sys2Proof.Machine
end

