-- ==== Sys2Proof/Laws/PerInstr.lean ====
section
/-! SUPPORT. Per-instruction families (LAWS.json). EncodeShape: the encoding of an instruction begins
with its function code (R59) and has its needed length (R63). -/

namespace Sys2Proof.Laws.EncodeShape

/-- The encoding's byte 0 is the function code, and its length is the needed length. -/
def Statement (i : Instr) : Prop := (encode i).head? = some (instrFc i) ∧ (encode i).length = instrLength i

theorem rc (start count : Word) : Statement (.rc start count) := ⟨rfl, rfl⟩

theorem rdi (start count : Word) : Statement (.rdi start count) := ⟨rfl, rfl⟩

theorem rhr (start count : Word) : Statement (.rhr start count) := ⟨rfl, rfl⟩

theorem rir (start count : Word) : Statement (.rir start count) := ⟨rfl, rfl⟩

theorem wsc (off value : Word) : Statement (.wsc off value) := ⟨rfl, rfl⟩

theorem wsr (off value : Word) : Statement (.wsr off value) := ⟨rfl, rfl⟩

theorem wmc (start count : Word) (bc : Byte) (payload : List Byte) : Statement (.wmc start count bc payload) :=
  ⟨rfl, by simp [encode, encodeFields, instrLength, Machine.be16Bytes]; omega⟩

theorem wmr (start count : Word) (bc : Byte) (payload : List Byte) : Statement (.wmr start count bc payload) :=
  ⟨rfl, by simp [encode, encodeFields, instrLength, Machine.be16Bytes]; omega⟩

end Sys2Proof.Laws.EncodeShape
end

