-- ==== Sys2Proof/Laws/Step.lean ====
section
/-! SUPPORT. Once, everything a configuration operation, a transaction and a step can do. -/

namespace Sys2Proof.Machine

/-- What a configuration operation may touch: the store inside the frame of a write or by one appended
entry, its answer, and the hook port. -/
structure CfgFrame (s t : State) : Prop where
  hooks : ∃ added, t.store.map (fun e => (e.address, e.hookEn, e.hookId)) =
    s.store.map (fun e => (e.address, e.hookEn, e.hookId)) ++ added
  rest : t = { s with
    store := t.store, cfgOut := t.cfgOut, hookWait := t.hookWait, hookTrace := t.hookTrace,
    hookScript := t.hookScript, hookDraws := t.hookDraws }

/-- `cfg_add` (R80, R83). -/
theorem cfgAdd_cases (kind : Kind) (off init : Word) (hookEn : Bool) (hookId : HookId) (s : State) :
    (s.params.storeCap = some s.store.length ∧
      cfgAdd kind off init hookEn hookId s = { s with cfgOut := some .full }) ∨
    (s.params.storeCap ≠ some s.store.length ∧
      cfgAdd kind off init hookEn hookId s = { s with
        store := s.store ++ [⟨s.addrOf kind off.toNat, init, hookEn, hookId % 2 ^ s.params.hookIdW⟩], cfgOut := some .ok }) := by
  by_cases h : s.params.storeCap = some s.store.length
  · exact .inl ⟨h, by simp [cfgAdd, State.register, h]⟩
  · exact .inr ⟨h, by simp [cfgAdd, State.register, h]⟩

/-- `cfg_write` (R82, R149). -/
theorem cfgWrite_cases (kind : Kind) (off value : Word) (s : State) :
    (find s.store (s.addrOf kind off.toNat) = none ∧
      cfgWrite kind off value s = { s with cfgOut := some .absent }) ∨
    ∃ i e, find s.store (s.addrOf kind off.toNat) = some i ∧ s.store[i]? = some e ∧
      ((e.hookEn = false ∧
          cfgWrite kind off value s = { s with store := setValueAt s.store i value, cfgOut := some .ok }) ∨
       (e.hookEn = true ∧ ∃ w t,
          HookAnswered s t ⟨e.hookId, s.addrOf kind off.toNat, value, s.params.srcLocal⟩ w ∧
          (∀ rest, s.hookScript ≠ .never :: rest) ∧
          cfgWrite kind off value s = { t with store := setValueAt s.store i w, cfgOut := some .ok }) ∨
       (e.hookEn = true ∧ ∃ rest, s.hookScript = .never :: rest ∧
          cfgWrite kind off value s = { s with
            hookScript := rest
            hookWait := some ⟨e.hookId, s.addrOf kind off.toNat, value, s.params.srcLocal⟩
            cfgOut := none })) := by
  rcases storeWrite_cases s (s.addrOf kind off.toNat) value s.params.srcLocal with
    ⟨hf, h⟩ | ⟨i, e, hf, he, ⟨hh, h⟩ | ⟨hh, w, t, ht, hn, h⟩ | ⟨hh, rest, hs, h⟩⟩
  · exact .inl ⟨hf, by simp [cfgWrite, h]⟩
  · exact .inr ⟨i, e, hf, he, .inl ⟨hh, by simp [cfgWrite, h]⟩⟩
  · exact .inr ⟨i, e, hf, he, .inr (.inl ⟨hh, w, t, ht, hn, by simp [cfgWrite, h]⟩)⟩
  · exact .inr ⟨i, e, hf, he, .inr (.inr ⟨hh, rest, hs, by simp [cfgWrite, h]⟩)⟩

/-- A configuration operation that creates no entry keeps the store's addresses, hooks and order. -/
theorem cfgExec_hooks {op : CfgOp} (h : ∀ kind off init hookEn hookId, op ≠ .add kind off init hookEn hookId)
    (s : State) :
    (cfgExec op s).store.map (fun e => (e.address, e.hookEn, e.hookId)) =
      s.store.map (fun e => (e.address, e.hookEn, e.hookId)) := by
  cases op with
  | add kind off init hookEn hookId => exact absurd rfl (h kind off init hookEn hookId)
  | read kind off => rfl
  | write kind off value =>
    have hw := (storeWrite_frame s (s.addrOf kind off.toNat) value s.params.srcLocal).1
    rcases hr : s.storeWrite (s.addrOf kind off.toNat) value s.params.srcLocal with ⟨st, t⟩
    rw [hr] at hw
    cases st <;> simp only [cfgExec, cfgWrite, State.kindWrite, hr] <;> exact hw.hooks
  | enum i => rfl

theorem cfgExec_frame (op : CfgOp) (s : State) : CfgFrame s (cfgExec op s) := by
  cases op with
  | add kind off init hookEn hookId =>
    rcases cfgAdd_cases kind off init hookEn hookId s with ⟨-, h⟩ | ⟨-, h⟩
    · exact ⟨⟨[], by simp [cfgExec, h]⟩, by simp [cfgExec, h]⟩
    · exact ⟨⟨[(s.addrOf kind off.toNat, hookEn, hookId % 2 ^ s.params.hookIdW)], by simp [cfgExec, h]⟩, by simp [cfgExec, h]⟩
  | read kind off => exact ⟨⟨[], by simp [cfgExec, cfgRead]⟩, rfl⟩
  | write kind off value =>
    refine ⟨⟨[], by rw [List.append_nil]; exact cfgExec_hooks (by simp) s⟩, ?_⟩
    have hw := (storeWrite_frame s (s.addrOf kind off.toNat) value s.params.srcLocal).1.rest
    rcases hr : s.storeWrite (s.addrOf kind off.toNat) value s.params.srcLocal with ⟨st, t⟩
    rw [hr] at hw
    dsimp only at hw
    cases st <;> simp only [cfgExec, cfgWrite, State.kindWrite, hr] <;> rw [hw]
  | enum i => exact ⟨⟨[], by simp [cfgExec, cfgEnum]⟩, rfl⟩

/-- Everything decode and dispatch can do on an accepted PDU (R87, R88): a next state inside the frame of
a handler, always. -/
theorem dispatch_cases (s : State) : ∃ t, dispatch s = .next t ∧ HandlerFrame s t := by
  unfold dispatch
  cases h : decodeAt s.reqByte with
  | none => exact ⟨_, rfl, raise_frame _ _ _⟩
  | some i =>
    rcases exec_cases i s with ⟨-, t, ht, hf⟩ | ⟨hw, -⟩
    · exact ⟨t, ht, hf⟩
    · rw [decodeAt_wellFormed h] at hw
      cases hw

/-- Everything a step can do. -/
theorem step_cases (s : State) :
    (s.inputs = [] ∧ step s = .next s) ∨
    (∃ strap rest, s.inputs = .reset strap :: rest ∧
      step s = .next (State.resetBy { s with inputs := rest } strap)) ∨
    (∃ op rest, s.inputs = .cfg op :: rest ∧
      ((s.ready = true ∧ step s = .next (cfgExec op { s with inputs := rest })) ∨
       (s.ready = false ∧ step s = .next s))) ∨
    (∃ bytes rest, s.inputs = .pdu bytes :: rest ∧
      ((s.ready = false ∧ step s = .next s) ∨
       (s.ready = true ∧ s.params.reqCap < bytes.length ∧ step s = .refused .pduExceedsReqCap) ∨
       (s.ready = true ∧ bytes.length ≤ s.params.reqCap ∧ ∃ t, dispatch (s.acceptPdu bytes rest) = .next t ∧
          HandlerFrame (s.acceptPdu bytes rest) t ∧ step s = .next t.endTransaction))) := by
  unfold step
  rcases hi : s.inputs with _ | ⟨inp, rest⟩
  · exact .inl ⟨rfl, rfl⟩
  · right
    cases inp with
    | reset strap => exact .inl ⟨strap, rest, rfl, rfl⟩
    | cfg op =>
      refine .inr (.inl ⟨op, rest, rfl, ?_⟩)
      cases hr : s.ready with
      | true => exact .inl ⟨rfl, by simp [takeInput, hr]⟩
      | false => exact .inr ⟨rfl, by simp [takeInput, hr]⟩
    | pdu bytes =>
      refine .inr (.inr ⟨bytes, rest, rfl, ?_⟩)
      cases hr : s.ready with
      | false => exact .inl ⟨rfl, by simp [takeInput, hr]⟩
      | true =>
        right
        by_cases hl : bytes.length ≤ s.params.reqCap
        · obtain ⟨t, ht, hf⟩ := dispatch_cases (s.acceptPdu bytes rest)
          refine .inr ⟨rfl, hl, t, ht, hf, ?_⟩
          have : bytes.length ≤ s.params.reqCap := hl
          simp [takeInput, hr, processPdu, this, ht, finish]
        · refine .inl ⟨rfl, by omega, ?_⟩
          have : ¬ bytes.length ≤ s.params.reqCap := hl
          simp [takeInput, hr, processPdu, this]

/-- Being ready (R16): `Idle`, and no hook call waiting. -/
theorem ready_iff (s : State) : s.ready = true ↔ s.phase = .idle ∧ s.hookWait = none := by
  simp [State.ready]

end Sys2Proof.Machine
end

