-- ==== Sys2Proof/Tests/Slice0.lean ====
section
/-! SUPPORT. Tests. Expected results are the spec's (95_test_vectors.md, by vector number, or the rule
named), written as bytes on the wire. Then one witness for every statement that has hypotheses. -/

namespace Sys2Proof.Tests

open Machine

/-! ### Helpers: fixture F0 (95_test_vectors.md 2.0), and one step on a small state -/

def mk (address value : Nat) : Entry := ⟨address, BitVec.ofNat 16 value, false, 0⟩

/-- The entry of `mk` with hook `hookId`. -/
def mkHook (address value : Nat) (hookId : Nat) : Entry :=
  ⟨address, BitVec.ofNat 16 value, true, hookId⟩

def coilEntries : List Entry :=
  [mk 1 0xFF00, mk 2 0, mk 3 0xFF00, mk 4 0, mk 5 0xFF00, mk 6 0, mk 7 0xFF00, mk 8 0, mk 9 0xFF00, mk 10 0xFF00]

def dinputEntries : List Entry := [mk 10001 0xFF00, mk 10002 0xFF00, mk 10003 0]

def iregEntries : List Entry := [mk 30001 0xABCD, mk 30002 1]

def hregEntries : List Entry := [mk 40001 0x1234, mk 40002 0, mk 40003 0xFFFF]

def withStore (es : List Entry) : State := { State.reset with store := es }

def f0 : State := withStore (coilEntries ++ dinputEntries ++ iregEntries ++ hregEntries)

def bytes (l : List Nat) : List Byte := l.map (BitVec.ofNat 8)

def onPdu (s : State) (l : List Nat) : State := { s with inputs := [.pdu (bytes l)] }

def onCfg (s : State) (op : CfgOp) : State := { s with inputs := [.cfg op] }

def scripted (s : State) (script : List HookReply) : State := { s with hookScript := script }

def withStoreCap (cap : Nat) (s : State) : State := { s with params := { s.params with storeCap := some cap } }

def withRespCap (cap : Nat) (s : State) : State := { s with params := { s.params with respCap := cap } }

/-- The outcome is a next state with this property. -/
def nextSat (o : Host.Outcome State Fault Refusal) (p : State → Bool) : Bool :=
  match o with
  | .next t => p t
  | .fault _ => false
  | .refused _ => false

/-- A completed transaction in mode `Normal` with this reply. -/
def normal (t : State) (l : List Nat) : Bool :=
  t.phase == .idle && t.replyMode == .normal && t.reply == bytes l

/-- A completed transaction in mode `Echo` with this reply. -/
def echoed (t : State) (l : List Nat) : Bool :=
  t.phase == .idle && t.replyMode == .echo && t.respLen == 0 && t.reply == bytes l

/-! ### Decoding: one word of each format and function code, written out from R51 to R53 and R59 -/

theorem test_decode_rc : decode (bytes [0x01, 0x12, 0x34, 0x00, 0x0A]) = .ok (.rc 0x1234#16 10#16, []) := by
  decide
theorem test_decode_rdi : decode (bytes [0x02, 0x00, 0x03, 0x01, 0x02]) = .ok (.rdi 3#16 0x0102#16, []) := by
  decide
theorem test_decode_rhr : decode (bytes [0x03, 0x00, 0x02, 0x01, 0x00]) = .ok (.rhr 2#16 256#16, []) := by
  decide
theorem test_decode_rir : decode (bytes [0x04, 0x27, 0x10, 0x00, 0x01]) = .ok (.rir 10000#16 1#16, []) := by
  decide
theorem test_decode_wsc : decode (bytes [0x05, 0x00, 0x01, 0xFF, 0x00]) = .ok (.wsc 1#16 0xFF00#16, []) := by
  decide
theorem test_decode_wsr :
    decode (bytes [0x06, 0x00, 0x01, 0xBE, 0xEF, 0x99]) = .ok (.wsr 1#16 0xBEEF#16, [0x99#8]) := by decide
theorem test_decode_wmc :
    decode (bytes [0x0F, 0x00, 0x00, 0x00, 0x0A, 0x02, 0xAA, 0x01]) =
      .ok (.wmc 0#16 10#16 2#8 [0xAA#8, 0x01#8], []) := by decide
theorem test_decode_wmr :
    decode (bytes [0x10, 0x00, 0x00, 0x00, 0x01, 0x02, 0x01, 0x02, 0x77]) =
      .ok (.wmr 0#16 1#16 2#8 [0x01#8, 0x02#8], [0x77#8]) := by decide
/-- R53, R63: a multi-write that fails its value check is read to byte 5 only. -/
theorem test_decode_wmr_bad_count :
    decode (bytes [0x10, 0x00, 0x00, 0x00, 0x7C, 0xF8]) = .ok (.wmr 0#16 124#16 0xF8#8 [], []) := by decide
theorem test_decode_unknown : decode (bytes [0x99]) = .error (.unknownFunction 0x99#8) := by decide
theorem test_decode_truncated : decode (bytes [0x03, 0x00, 0x00]) = .error (.truncated 5) := by decide
/-- The host's numbering: bit 0 is the least significant bit of byte 0. -/
theorem test_decode_table_word : decodeTableWord 40 0xEFBE010006 = some (.wsr 1#16 0xBEEF#16) := by decide
theorem test_fetch_word :
    nextSat (step (State.reset.withFetchWord 8 0x10)) (fun t => normal t [0x90, 0x03]) = true := by decide

/-! ### Well-formedness: a term that fails each check is refused by the check and by its meaning -/

theorem test_wf_wmr_short : (Instr.wmr 0#16 1#16 2#8 [0x01#8]).wellFormed = false := by decide
theorem test_wf_wmr_long : (Instr.wmr 0#16 1#16 2#8 [1#8, 2#8, 3#8]).wellFormed = false := by decide
theorem test_wf_wmr_unread : (Instr.wmr 0#16 1#16 3#8 [1#8, 2#8, 3#8]).wellFormed = false := by decide
theorem test_wf_wmc_short : (Instr.wmc 0#16 9#16 2#8 [0xAA#8]).wellFormed = false := by decide
theorem test_wf_wmc_unread : (Instr.wmc 0#16 0#16 0#8 [0xAA#8]).wellFormed = false := by decide
theorem test_wf_refused : exec (.wmr 0#16 1#16 2#8 []) f0 = .refused .illFormedInstr := rfl

/-! ### Instructions, at most two tests each -/

theorem test_rc_V22 : nextSat (step (onPdu f0 [0x01, 0x00, 0x00, 0x00, 0x09]))
    (fun t => normal t [0x01, 0x02, 0x55, 0x01] && t.store == f0.store) = true := by decide
/-- V35: holding registers `1234`, `0000`, `FFFF` read as coils are all 0. -/
theorem test_rc_V35 : nextSat (step (onPdu f0 [0x01, 0x9C, 0x40, 0x00, 0x03]))
    (fun t => normal t [0x01, 0x01, 0x00]) = true := by decide
theorem test_rdi_V31 : nextSat (step (onPdu f0 [0x02, 0x00, 0x00, 0x00, 0x03]))
    (fun t => normal t [0x02, 0x01, 0x03]) = true := by decide
theorem test_rdi_V33 : nextSat (step (onPdu f0 [0x02, 0x00, 0x00, 0x07, 0xD1]))
    (fun t => normal t [0x82, 0x03]) = true := by decide
/-- V9: the second register is absent and reads 0. -/
theorem test_rhr_V9 : nextSat (step (onPdu f0 [0x03, 0x00, 0x02, 0x00, 0x02]))
    (fun t => normal t [0x03, 0x04, 0xFF, 0xFF, 0x00, 0x00]) = true := by decide
theorem test_rhr_V8 : nextSat (step (onPdu f0 [0x03, 0x00, 0x05, 0x00, 0x00]))
    (fun t => normal t [0x83, 0x03]) = true := by decide
theorem test_rir_V11 : nextSat (step (onPdu f0 [0x04, 0x00, 0x00, 0x00, 0x02]))
    (fun t => normal t [0x04, 0x04, 0xAB, 0xCD, 0x00, 0x01]) = true := by decide
theorem test_rir_V13 : nextSat (step (onPdu f0 [0x04, 0x00, 0x02, 0x00, 0x01]))
    (fun t => normal t [0x84, 0x02]) = true := by decide
/-- V57: a discrete input is written through aliasing. -/
theorem test_wsc_V57 : nextSat (step (onPdu f0 [0x05, 0x27, 0x10, 0x00, 0x00]))
    (fun t => echoed t [0x05, 0x27, 0x10, 0x00, 0x00] && t.x 10001 == 0#16) = true := by decide
/-- V58: the hook answers `0001`; the read-back compares 16 bits. -/
theorem test_wsc_V58 : nextSat (step (onPdu (scripted (withStore [mkHook 1 0xFF00 5]) [.answer 1#16])
      [0x05, 0x00, 0x00, 0x00, 0x00]))
    (fun t => normal t [0x85, 0x04] && t.x 1 == 1#16 &&
      t.hookTrace == [⟨⟨5, 1, 0#16, 0x05#8⟩, 1#16⟩]) = true := by decide
/-- V44: the trailing byte is echoed. -/
theorem test_wsr_V44 : nextSat (step (onPdu f0 [0x06, 0x00, 0x01, 0xBE, 0xEF, 0x99]))
    (fun t => echoed t [0x06, 0x00, 0x01, 0xBE, 0xEF, 0x99] && t.x 40002 == 0xBEEF#16) = true := by decide
/-- V45: the hook clamps to `0064`; its answer is kept. -/
theorem test_wsr_V45 : nextSat (step (onPdu (scripted (withStore [mkHook 40001 0x1234 3]) [.answer 0x64#16])
      [0x06, 0x00, 0x00, 0x01, 0xF4]))
    (fun t => normal t [0x86, 0x04] && t.x 40001 == 0x64#16 &&
      t.hookTrace == [⟨⟨3, 40001, 0x01F4#16, 0x06#8⟩, 0x64#16⟩]) = true := by decide
/-- V71: the padding bits of the last byte are ignored. -/
theorem test_wmc_V71 : nextSat (step (onPdu f0 [0x0F, 0x00, 0x00, 0x00, 0x0A, 0x02, 0xAA, 0xFD]))
    (fun t => normal t [0x0F, 0x00, 0x00, 0x00, 0x0A] &&
      (t.store.take 11).map Entry.value ==
        [0, 0xFF00#16, 0, 0xFF00#16, 0, 0xFF00#16, 0, 0xFF00#16, 0xFF00#16, 0, 0xFF00#16]) = true := by decide
/-- V75: offset 10 is absent, so offsets 5 to 9 are not written. -/
theorem test_wmc_V75 : nextSat (step (onPdu f0 [0x0F, 0x00, 0x05, 0x00, 0x06, 0x01, 0x3F]))
    (fun t => normal t [0x8F, 0x02] && t.store == f0.store) = true := by decide
/-- V68: the hook's `v + 1` is stored, and the reply does not tell. -/
theorem test_wmr_V68 : nextSat (step (onPdu
      (scripted (withStore [mk 40001 0x1234, mkHook 40002 0 8]) [.answer 0x0103#16])
      [0x10, 0x00, 0x00, 0x00, 0x02, 0x04, 0x00, 0x0A, 0x01, 0x02]))
    (fun t => normal t [0x10, 0x00, 0x00, 0x00, 0x02] && t.x 40001 == 0x0A#16 && t.x 40002 == 0x0103#16 &&
      t.hookTrace == [⟨⟨8, 40002, 0x0102#16, 0x10#8⟩, 0x0103#16⟩]) = true := by decide
/-- V64: 40004 is absent, and 40003 is not written. -/
theorem test_wmr_V64 : nextSat (step (onPdu f0 [0x10, 0x00, 0x02, 0x00, 0x02, 0x04, 0x00, 0x01, 0x00, 0x02]))
    (fun t => normal t [0x90, 0x02] && t.store == f0.store) = true := by decide

/-! ### Dispatch, short PDUs, reset -/

theorem test_unknown_V80 : nextSat (step (onPdu f0 [0x99])) (fun t => normal t [0x99, 0x01]) = true := by decide
theorem test_hreg_only_V94 :
    nextSat (step (onPdu { f0 with hregOnly := true } [0x0F, 0x00, 0x00, 0x00, 0x08, 0x01, 0xFF]))
      (fun t => normal t [0x8F, 0x01] && t.store == f0.store) = true := by decide
/-- V130: byte 7 is missing and arbitrary; the reply does not depend on it. -/
theorem test_short_V130 : nextSat (step (onPdu f0 [0x10, 0x00, 0x00, 0x00, 0x01, 0x02, 0x00]))
    (fun t => normal t [0x10, 0x00, 0x00, 0x00, 0x01]) = true := by decide
theorem test_reset_V120 : nextSat (step { f0 with inputs := [.reset false] })
    (fun t => t.busy == false && t.replyMode == .suppressed && t.respLen == 0 && t.store.length == 0 &&
      t.reply == []) = true := by decide
theorem test_no_answer_R149 :
    nextSat (step (onPdu (scripted (withStore [mkHook 40001 0x1234 3]) [.never]) [0x06, 0x00, 0x00, 0x00, 0x01]))
      (fun t => t.busy && t.hookWait.isSome && t.x 40001 == 0x1234#16) = true := by decide

/-! ### The configuration port -/

theorem test_cfg_read_V102 : nextSat (step (onCfg f0 (.read .coil 10000#16)))
    (fun t => t.cfgOut == some (.value 0xFF00#16)) = true := by decide
theorem test_cfg_write_V103 : nextSat (step (onCfg f0 (.write .ireg 0#16 0x5555#16)))
    (fun t => t.cfgOut == some .ok && t.x 30001 == 0x5555#16) = true := by decide
theorem test_cfg_write_V104 : nextSat (step (onCfg f0 (.write .hreg 9#16 1#16)))
    (fun t => t.cfgOut == some .absent && t.store == f0.store) = true := by decide
theorem test_cfg_enum_V107 : nextSat (step (onCfg f0 (.enum 17)))
    (fun t => t.cfgOut == some (.entry (mk 40003 0xFFFF))) = true := by decide
theorem test_cfg_enum_V108 : nextSat (step (onCfg f0 (.enum 18)))
    (fun t => t.cfgOut == some .noEntry) = true := by decide
theorem test_cfg_add_V109 : nextSat (step (onCfg f0 (.add .hreg 0#16 0xAAAA#16 false 0)))
    (fun t => t.cfgOut == some .ok && t.store.length == 19 && t.x 40001 == 0x1234#16) = true := by decide
theorem test_cfg_add_full_R83 : nextSat (step (onCfg (withStoreCap 18 f0) (.add .hreg 7#16 1#16 false 0)))
    (fun t => t.cfgOut == some .full && t.store == f0.store) = true := by decide

/-! ### Addresses (95_test_vectors.md 2.1) -/

theorem test_flat : (flat 17 .coil 9999, flat 17 .dinput 0, flat 17 .ireg 10000, flat 17 .hreg 65535,
    flat 17 .hreg (65535 + 1999), flat 17 .coil 65535, flat 16 .hreg 25535) =
      (10000, 10001, 40001, 105536, 107535, 65536, 0) := by decide
theorem test_flat_aliases : flat 17 .coil 10000 = flat 17 .dinput 0 ∧ flat 17 .ireg 10000 = flat 17 .hreg 0 ∧
    flat 17 .dinput 20000 = flat 17 .ireg 0 ∧ flat 17 .coil 30000 = flat 17 .ireg 0 ∧
    flat 17 .dinput 30000 = flat 17 .hreg 0 ∧ flat 17 .coil 40000 = flat 17 .hreg 0 := by decide

/-! ### Other parameters than this hardware's (R5) -/

/-- With `RESP_CAP = 5` a read of two registers does not fit (R118, R129). -/
theorem test_small_resp_cap : nextSat (step (onPdu (withRespCap 5 f0) [0x03, 0x00, 0x00, 0x00, 0x02]))
    (fun t => normal t [0x83, 0x04]) = true := by decide
/-- With `ADDR_W = 16` holding register 25535 is address 0 (95_test_vectors.md 2.1). -/
theorem test_narrow_addresses : nextSat (step (onCfg
      { withStore [mk 0 0x4242] with params := { Config.params with addrW := 16 } } (.read .hreg 25535#16)))
    (fun t => t.cfgOut == some (.value 0x4242#16)) = true := by decide

/-! ### Witnesses: for every statement with hypotheses, states and operands that meet them together, with
each clause at the edges of its range -/

theorem present_of {es : List Entry} {a : Addr} (h : (find es a).isSome = true) : Present es a := by
  obtain ⟨i, hi⟩ := Option.isSome_iff_exists.1 h
  obtain ⟨e, he, ha, -⟩ := find_some hi
  exact ⟨e, List.mem_of_getElem? he, ha⟩

theorem absent_of {es : List Entry} {a : Addr} (h : find es a = none) : ¬ Present es a :=
  fun ⟨e, he, ha⟩ => find_none.1 h e he ha

theorem firstAt_of {es : List Entry} {a : Addr} {i : Nat} {e : Entry} (h : find es a = some i)
    (he : es[i]? = some e) : FirstAt es a i e := by
  obtain ⟨d, hd, ha, hb⟩ := find_some h
  cases hd.symm.trans he
  exact ⟨he, ha, hb⟩

def zeros (n : Nat) : List Byte := List.replicate n 0#8

theorem length_zeros (n : Nat) : (zeros n).length ≤ n := Nat.le_of_eq List.length_replicate

/-- `n` entries without hooks, at the addresses of the first `n` items of a kind. -/
def ramp (kind : Kind) (n : Nat) : State := withStore ((List.range n).map (fun k => ⟨flat 17 kind (0 + k), 0#16, false, 0⟩))

theorem ramp_present (kind : Kind) (n : Nat) : RangePresent (ramp kind n) kind 0 n :=
  fun k hk => ⟨⟨flat 17 kind (0 + k), 0#16, false, 0⟩, List.mem_map.2 ⟨k, List.mem_range.2 hk, rfl⟩, rfl⟩

theorem ramp_hookless {kind : Kind} {n i : Nat} {e : Entry} {a : Addr} (h : FirstAt (ramp kind n).store a i e) :
    e.hookEn = false := by
  obtain ⟨k, -, rfl⟩ := List.mem_map.1 (List.mem_of_getElem? h.1)
  rfl

/-- Two entries for 40001 without a hook, and one each for 40002 and 1 with a hook. -/
def small : List Entry := [mk 40001 0x1234, mk 40001 0x5678, mkHook 40002 0 3, mkHook 1 0 5]

def sml : State := withStore small

theorem witness_FlatAddressIsOffsetPlusBase :
    17 ≤ 17 ∧ 0 ≤ 65535 + 1999 ∧ 67534 ≤ 65535 + 1999 ∧ flat 17 .hreg 67534 = 107535 := by decide

theorem witness_KindsAliasAndRangesDoNotWrap :
    flat 17 .coil 67534 = flat 17 .dinput 57534 ∧ flat 17 .dinput 67534 = flat 17 .ireg 47534 ∧
      flat 17 .coil 67534 = flat 17 .ireg 37534 ∧ flat 17 .coil 67534 = flat 17 .hreg 27534 ∧
      flat 17 .coil 0 ≠ flat 17 .coil 67534 ∧ flat 16 .coil 10000 = flat 16 .dinput 0 ∧
      65535 < 0 + 2 ^ 16 ∧ flat 16 .coil 65535 ≠ flat 16 .coil 0 := by decide

theorem witness_FindReturnsFirstMatch : FirstAt small 40001 0 (mk 40001 0x1234) ∧ Present small 40001 ∧
    ¬ Present small 40003 :=
  ⟨firstAt_of rfl rfl, present_of rfl, absent_of rfl⟩

theorem witness_RegisterReadIsFirstMatchOrZero :
    FirstAt sml.store 1 3 (mkHook 1 0 5) ∧ ¬ Present sml.store 0 ∧ ¬ Present sml.store 0x1FFFF :=
  ⟨firstAt_of rfl rfl, absent_of rfl, absent_of rfl⟩

theorem witness_StoreWriteGoesThroughTheHook :
    ¬ Present sml.store 40003 ∧ FirstAt sml.store 40001 0 (mk 40001 0x1234) ∧
      (mk 40001 0x1234).hookEn = false ∧ FirstAt sml.store 40002 2 (mkHook 40002 0 3) ∧
      (mkHook 40002 0 3).hookEn = true ∧ (∀ rest, sml.hookScript ≠ .never :: rest) ∧
      (∀ rest, (scripted sml [.answer 1#16]).hookScript ≠ .never :: rest) ∧
      (scripted sml [.never]).hookScript = .never :: [] :=
  ⟨absent_of rfl, firstAt_of rfl rfl, rfl, firstAt_of rfl rfl, rfl, (by intro _ h; cases h), (by intro _ h; cases h), rfl⟩

theorem witness_ReadAfterWriteLaws :
    (∃ t, sml.storeWrite 40002 7#16 0x06#8 = (.ok, t)) ∧
      (∃ t, (sml.storeWrite 40001 7#16 0x06#8).2 = t) ∧ (40002 : Addr) ≠ 40001 ∧
      ¬ Present sml.store 40003 :=
  ⟨⟨_, rfl⟩, ⟨_, rfl⟩, by decide, absent_of rfl⟩

/-- The shortest and the longest request with an unknown code, and one that `HREG_ONLY` takes out. -/
theorem witness_UnknownFunctionIsAnswered :
    (onPdu f0 [0x99]).ready = true ∧ (onPdu f0 [0x99]).inputs = .pdu [0x99#8] :: [] ∧
      ([] : List Byte).length < f0.params.reqCap ∧ (zeros 252).length < f0.params.reqCap ∧
      0x99#8 ∉ [0x01#8, 0x02#8, 0x03#8, 0x04#8, 0x05#8, 0x06#8, 0x0F#8, 0x10#8] ∧ 0x80#8 ≤ 0x99#8 ∧
      (onPdu { f0 with hregOnly := true } [0x01]).hregOnly = true ∧ 0x01#8 ∉ [0x03#8, 0x06#8, 0x10#8] :=
  ⟨rfl, rfl, by decide, Nat.lt_succ_of_le (length_zeros 252), by decide, by decide, rfl, by decide⟩

/-- The longest read of this hardware, and the longest that fits the smallest response buffer. -/
theorem witness_RegisterReadsAnswer :
    (1 ≤ (1#16).toNat ∧ (125#16).toNat ≤ 125) ∧ 2 + 2 * (125#16).toNat ≤ f0.params.respCap ∧
      2 + 2 * (1#16).toNat ≤ (withRespCap 5 f0).params.respCap ∧
      Present f0.store (f0.addrOf .hreg (0#16).toNat) ∧
      f0.hregOnly = false ∧ Present f0.store (f0.addrOf .ireg (1#16).toNat) ∧
      Present f0.store (f0.addrOf .ireg (10002#16).toNat) :=
  ⟨by decide, by decide, by decide, present_of rfl, rfl, present_of rfl, present_of rfl⟩

theorem witness_RegisterReadsRaise :
    ((0#16).toNat < 1 ∧ 125 < (126#16).toNat ∧ 125 < (0xFFFF#16).toNat) ∧
      ¬ Present f0.store (f0.addrOf .hreg (3#16).toNat) ∧ ¬ Present f0.store (f0.addrOf .hreg (0xFFFF#16).toNat) ∧
      f0.hregOnly = false ∧ ¬ Present f0.store (f0.addrOf .ireg (2#16).toNat) ∧
      (withRespCap 5 f0).params.respCap < 2 + 2 * (2#16).toNat ∧
      Present (withRespCap 5 f0).store ((withRespCap 5 f0).addrOf .hreg (0#16).toNat) ∧
      Present (withRespCap 5 f0).store ((withRespCap 5 f0).addrOf .ireg (0#16).toNat) :=
  ⟨by decide, absent_of rfl, absent_of rfl, rfl, absent_of rfl, by decide, present_of rfl, present_of rfl⟩

theorem witness_BitReadsAnswer :
    f0.hregOnly = false ∧ (1 ≤ (1#16).toNat ∧ (2000#16).toNat ≤ 2000) ∧
      2 + ((2000#16).toNat + 7) / 8 ≤ f0.params.respCap ∧
      2 + ((24#16).toNat + 7) / 8 ≤ (withRespCap 5 f0).params.respCap ∧
      Present f0.store (f0.addrOf .coil (9#16).toNat) ∧ Present f0.store (f0.addrOf .coil (40000#16).toNat) ∧
      Present f0.store (f0.addrOf .dinput (0#16).toNat) :=
  ⟨rfl, by decide, by decide, by decide, present_of rfl, present_of rfl, present_of rfl⟩

theorem witness_BitReadsRaise :
    f0.hregOnly = false ∧ ((0#16).toNat < 1 ∧ 2000 < (2001#16).toNat) ∧
      ¬ Present f0.store (f0.addrOf .coil (10#16).toNat) ∧ ¬ Present f0.store (f0.addrOf .dinput (3#16).toNat) ∧
      (withRespCap 5 f0).params.respCap < 2 + ((25#16).toNat + 7) / 8 ∧
      Present (withRespCap 5 f0).store ((withRespCap 5 f0).addrOf .coil (0#16).toNat) ∧
      Present (withRespCap 5 f0).store ((withRespCap 5 f0).addrOf .dinput (0#16).toNat) :=
  ⟨rfl, by decide, absent_of rfl, absent_of rfl, by decide, present_of rfl, present_of rfl⟩

theorem witness_SingleWritesStoreAndReadBack :
    FirstAt sml.store (flat 17 .hreg (0#16).toNat) 0 (mk 40001 0x1234) ∧
      FirstAt sml.store (flat 17 .hreg (1#16).toNat) 2 (mkHook 40002 0 3) ∧ sml.hregOnly = false ∧
      FirstAt f0.store (flat 17 .coil (9#16).toNat) 9 (mk 10 0xFF00) ∧
      FirstAt sml.store (flat 17 .coil (0#16).toNat) 3 (mkHook 1 0 5) ∧
      (∀ more, (scripted sml [.answer 0x64#16]).hookScript ≠ .never :: more) ∧
      (∀ more, sml.hookScript ≠ .never :: more) :=
  ⟨firstAt_of rfl rfl, firstAt_of rfl rfl, rfl, firstAt_of rfl rfl, firstAt_of rfl rfl,
    (by intro _ h; cases h), (by intro _ h; cases h)⟩

theorem witness_SingleWritesRaise :
    ¬ Present f0.store (flat 17 .hreg (3#16).toNat) ∧ f0.hregOnly = false ∧
      (0xFF01#16 ≠ 0xFF00#16 ∧ 0xFF01#16 ≠ 0x0000#16) ∧ (1#16 ≠ 0xFF00#16 ∧ 1#16 ≠ 0x0000#16) ∧
      ¬ Present f0.store (flat 17 .coil (10#16).toNat) :=
  ⟨absent_of rfl, rfl, by decide, by decide, absent_of rfl⟩

/-- The longest and the shortest multi-writes. -/
theorem witness_MultiWritesStoreTheRange :
    (ramp .hreg 123).params.Ok ∧ (ramp .coil 1968).params.Ok ∧ (zeros 246).length = (246#8).toNat ∧ WmrLegal 123#16 246#8 ∧
      RangePresent (ramp .hreg 123) .hreg (0#16).toNat (123#16).toNat ∧
      (∀ k i e, k < (123#16).toNat →
        FirstAt (ramp .hreg 123).store (flat 17 .hreg ((0#16).toNat + k)) i e → e.hookEn = false) ∧
      (ramp .coil 1968).hregOnly = false ∧ WmcLegal 1968#16 246#8 ∧
      RangePresent (ramp .coil 1968) .coil (0#16).toNat (1968#16).toNat ∧
      (∀ k i e, k < (1968#16).toNat →
        FirstAt (ramp .coil 1968).store (flat 17 .coil ((0#16).toNat + k)) i e → e.hookEn = false) ∧
      [0xAB#8, 0xCD#8].length = (2#8).toNat ∧ WmrLegal 1#16 2#8 ∧ WmcLegal 1#16 1#8 :=
  ⟨⟨by decide, by decide, by decide⟩, ⟨by decide, by decide, by decide⟩, List.length_replicate, by decide, ramp_present .hreg 123, fun _ _ _ _ h => ramp_hookless h, rfl, by decide,
    ramp_present .coil 1968, fun _ _ _ _ h => ramp_hookless h, rfl, by decide, by decide⟩

theorem witness_MultiWritesDoNotReadBack :
    sml.params.Ok ∧ [0x00#8, 0x0A#8, 0x01#8, 0x02#8].length = (4#8).toNat ∧ Answering (scripted sml [.answer 0x0103#16]) ∧
      WmrLegal 2#16 4#8 ∧ RangePresent (scripted sml [.answer 0x0103#16]) .hreg (0#16).toNat (2#16).toNat ∧
      sml.hregOnly = false ∧ [0x01#8].length = (1#8).toNat ∧ Answering sml ∧ WmcLegal 1#16 1#8 ∧
      RangePresent sml .coil (0#16).toNat (1#16).toNat := by
  refine ⟨by decide, rfl, by simp [Answering, scripted], by decide, fun k hk => ?_, rfl, rfl, by simp [Answering, sml, withStore, State.reset],
    by decide, fun k hk => ?_⟩
  · have hk : k < 2 := hk
    interval_cases k <;> exact present_of rfl
  · have hk : k < 1 := hk
    interval_cases k
    exact present_of rfl

theorem witness_MultiWritesRaise :
    (Instr.wmr 0#16 124#16 0xF8#8 []).wellFormed = true ∧ ¬ WmrLegal 124#16 0xF8#8 ∧ ¬ WmrLegal 0#16 0#8 ∧
      (Instr.wmr 2#16 2#16 4#8 [0#8, 1#8, 0#8, 2#8]).wellFormed = true ∧ WmrLegal 2#16 4#8 ∧
      ¬ RangePresent f0 .hreg (2#16).toNat (2#16).toNat ∧ f0.hregOnly = false ∧
      (Instr.wmc 0#16 1969#16 0xF7#8 []).wellFormed = true ∧ ¬ WmcLegal 1969#16 0xF7#8 ∧ ¬ WmcLegal 9#16 1#8 ∧
      (Instr.wmc 5#16 6#16 1#8 [0x3F#8]).wellFormed = true ∧ WmcLegal 6#16 1#8 ∧
      ¬ RangePresent f0 .coil (5#16).toNat (6#16).toNat := by
  refine ⟨by decide, by decide, by decide, by decide, by decide, fun h => ?_, rfl, by decide, by decide, by decide,
    by decide, by decide, fun h => ?_⟩
  · exact absent_of (es := f0.store) (a := flat 17 .hreg 3) rfl (h 1 (by decide))
  · exact absent_of (es := f0.store) (a := flat 17 .coil 10) rfl (h 5 (by decide))

theorem witness_MultiWritesAreAllOrNothing :
    (Instr.wmr 0#16 124#16 0xF8#8 []).wellFormed = true ∧
      ¬ (WmrLegal 124#16 0xF8#8 ∧ RangePresent f0 .hreg (0#16).toNat (124#16).toNat) ∧
      (Instr.wmr 2#16 2#16 4#8 [0#8, 1#8, 0#8, 2#8]).wellFormed = true ∧
      ¬ (WmrLegal 2#16 4#8 ∧ RangePresent f0 .hreg (2#16).toNat (2#16).toNat) ∧ f0.hregOnly = false ∧
      (Instr.wmc 5#16 6#16 1#8 [0x3F#8]).wellFormed = true ∧
      ¬ (WmcLegal 6#16 1#8 ∧ RangePresent f0 .coil (5#16).toNat (6#16).toNat) ∧
      RangePresent f0 .hreg 1 [7#16, 7#16].length ∧ Answering (scripted f0 [.answer 1#16]) := by
  refine ⟨by decide, fun h => absurd h.1 (by decide), by decide, fun h => ?_, rfl, by decide, fun h => ?_,
    fun k hk => ?_, by simp [Answering, scripted]⟩
  · exact absent_of (es := f0.store) (a := flat 17 .hreg 3) rfl (h.2 1 (by decide))
  · exact absent_of (es := f0.store) (a := flat 17 .coil 10) rfl (h.2 5 (by decide))
  · have hk : k < 2 := hk
    interval_cases k <;> exact present_of rfl

theorem witness_HregOnlyRemovesFiveFunctions :
    ({ f0 with hregOnly := true } : State).hregOnly = true ∧ (Instr.wmc 0#16 8#16 1#8 [0xFF#8]).wellFormed = true ∧
      (Instr.wmr 0#16 1#16 2#8 [0#8, 7#8]).wellFormed = true ∧
      Instr.rhr 0#16 1#16 ∈ [Instr.rhr 0#16 1#16, .wsr 0#16 1#16, .wmr 0#16 1#16 2#8 [0#8, 7#8]] := by decide

theorem witness_ResetGivesTheResetValues :
    ({ f0 with inputs := [.reset true] } : State).inputs = .reset true :: [] ∧
      ({ f0 with phase := .processing, inputs := [.reset false] } : State).inputs = .reset false :: [] := by decide

theorem witness_EmptyStoreAnswersIllegalAddress :
    State.reset.store = [] ∧ State.reset.hregOnly = false ∧ (Instr.rhr 0#16 125#16).wellFormed = true ∧
      (Instr.wmr 0#16 1#16 2#8 [0#8, 1#8]).wellFormed = true ∧ WmrLegal 1#16 2#8 ∧
      (Instr.wmc 0#16 0#16 0#8 []).wellFormed = true ∧ ¬ WmcLegal 0#16 0#8 := by decide

theorem witness_CfgAddAppendsOneEntry :
    (onCfg f0 (.add .hreg 3#16 1#16 true 9)).ready = true ∧
      (onCfg f0 (.add .hreg 3#16 1#16 true 9)).inputs = .cfg (.add .hreg 3#16 1#16 true 9) :: [] ∧
      f0.params.storeCap ≠ some f0.store.length ∧ (withStoreCap 19 f0).params.storeCap ≠ some 18 ∧
      (withStoreCap 18 f0).params.storeCap = some f0.store.length := by decide

theorem witness_CfgReadAndEnumOnlyRead :
    (onCfg f0 (.read .hreg 0#16)).ready = true ∧
      FirstAt f0.store (flat 17 .hreg (0#16).toNat) 15 (mk 40001 0x1234) ∧
      ¬ Present f0.store (flat 17 .hreg (7#16).toNat) ∧ f0.store[17]? = some (mk 40003 0xFFFF) ∧ f0.store.length ≤ 18 :=
  ⟨rfl, firstAt_of rfl rfl, absent_of rfl, rfl, by decide⟩

theorem witness_CfgWriteUsesTheWritePath :
    (onCfg sml (.write .hreg 1#16 0xC8#16)).ready = true ∧
      (onCfg sml (.write .hreg 1#16 0xC8#16)).inputs = .cfg (.write .hreg 1#16 0xC8#16) :: [] ∧
      ¬ Present sml.store (flat 17 .hreg (9#16).toNat) ∧
      FirstAt sml.store (flat 17 .hreg (0#16).toNat) 0 (mk 40001 0x1234) ∧
      FirstAt sml.store (flat 17 .hreg (1#16).toNat) 2 (mkHook 40002 0 3) ∧
      ∀ more, sml.hookScript ≠ .never :: more :=
  ⟨rfl, rfl, absent_of rfl, firstAt_of rfl rfl, firstAt_of rfl rfl, (by intro _ h; cases h)⟩

theorem witness_DuplicateEntryIsShadowed :
    (onCfg f0 (.add .hreg 0#16 0xAAAA#16 false 0)).ready = true ∧ f0.params.storeCap ≠ some f0.store.length ∧
      Present f0.store (flat 17 .hreg (0#16).toNat) :=
  ⟨rfl, by decide, present_of rfl⟩

theorem witness_CfgOpsLeaveTheReplyAlone :
    ({ onCfg f0 (.enum 0) with phase := .processing } : State).ready = false ∧
      ({ onCfg f0 (.enum 0) with hookWait := some ⟨3, 40002, 7#16, 0x00#8⟩ } : State).ready = false ∧
      (onCfg f0 (.enum 0)).ready = true ∧ (onCfg f0 (.enum 0)).inputs = .cfg (.enum 0) :: [] ∧
      Answering (scripted (onCfg sml (.write .hreg 1#16 7#16)) [.answer 9#16]) :=
  ⟨rfl, rfl, rfl, rfl, by simp [Answering, scripted]⟩

theorem witness_DecodeInvertsEncode :
    (Instr.wmr 0xFFFF#16 1#16 2#8 [0xFF#8, 0x00#8]).wellFormed = true ∧
      (Instr.wmc 0#16 0xFFFF#16 0xFF#8 []).wellFormed = true ∧ (Instr.rc 0xFFFF#16 0#16).wellFormed = true := by decide

theorem witness_EncodeInvertsDecode :
    decode (bytes [0x0F, 0, 0, 0, 1, 1, 1, 9]) = .ok (.wmc 0#16 1#16 1#8 [1#8], [9#8]) := by decide

/-- The shortest and the longest transactions of a decoded instruction. -/
theorem witness_StepRunsTheDecodedInstruction :
    (onPdu f0 [0x03, 0, 0, 0, 1]).ready = true ∧
      (onPdu f0 [0x03, 0, 0, 0, 1]).inputs = .pdu (bytes [0x03, 0, 0, 0, 1]) :: [] ∧
      (bytes [0x03, 0, 0, 0, 1]).length ≤ f0.params.reqCap ∧
      decode (bytes [0x03, 0, 0, 0, 1]) = .ok (.rhr 0#16 1#16, []) := by decide

theorem witness_TrailingBytesChangeNothing :
    f0.ready = true ∧ (Instr.rhr 0#16 3#16).wellFormed = true ∧
      (encode (.rhr 0#16 3#16) ++ []).length ≤ f0.params.reqCap ∧
      (encode (.rhr 0#16 3#16) ++ zeros 248).length ≤ f0.params.reqCap := by
  refine ⟨rfl, rfl, by decide, ?_⟩
  have := length_zeros 248
  rw [List.length_append, show (encode (.rhr 0#16 3#16)).length = 5 from rfl, show f0.params.reqCap = 253 from rfl]
  omega

/-- A request with a trailing byte, in mode `Echo`. -/
theorem witness_EchoIsTheRequest : ∃ t,
    (onPdu f0 [0x06, 0, 1, 0xBE, 0xEF, 0x99]).ready = true ∧
      step (onPdu f0 [0x06, 0, 1, 0xBE, 0xEF, 0x99]) = .next t ∧ t.phase = .idle ∧ t.replyMode = .echo :=
  ⟨_, rfl, rfl, rfl, rfl⟩

/-- A request of one byte that needs five, and an environment that answers. -/
theorem witness_ShortRequestsAreAnswered :
    (onPdu sml [0x06]).ready = true ∧ (onPdu sml [0x06]).inputs = .pdu (0x06#8 :: []) :: [] ∧
      ([] : List Byte).length < sml.params.reqCap ∧ (zeros 252).length < sml.params.reqCap ∧
      Answering (onPdu sml [0x06]) :=
  ⟨rfl, rfl, by decide, Nat.lt_succ_of_le (length_zeros 252), by simp [Answering, onPdu, sml, withStore, State.reset]⟩

/-- The empty and the longest PDU. -/
theorem witness_EveryPduIsAnswered :
    (onPdu sml []).ready = true ∧ (onPdu sml []).inputs = .pdu [] :: [] ∧ 
      ([] : List Byte).length ≤ sml.params.reqCap ∧ (zeros 253).length ≤ sml.params.reqCap ∧ sml.params.Ok ∧
      Answering (scripted (onPdu sml []) [.answer 0#16]) :=
  ⟨rfl, rfl, by decide, length_zeros 253, by decide, by simp [Answering, scripted]⟩

/-- A waiting transaction, a waiting `cfg_write`, and states that are not ready with a PDU, an operation or
nothing to come. -/
theorem witness_UnansweredHookWaitsForReset :
    (∃ t, step (onPdu (scripted sml [.never]) [0x06, 0, 1, 0, 7]) = .next t ∧ t.hookWait ≠ none ∧
      t.ready = false ∧ ∀ strap rest, t.inputs ≠ .reset strap :: rest) ∧
      (∃ t, step (onCfg (scripted sml [.never]) (.write .hreg 1#16 7#16)) = .next t ∧ t.hookWait ≠ none ∧
        t.ready = false ∧ (onPdu t [0x99]).ready = false) ∧
      ({ sml with phase := .processing, inputs := [.reset true] } : State).inputs = .reset true :: [] ∧
      FirstAt sml.store (sml.addrOf .hreg (1#16).toNat) 2 (mkHook 40002 0 3) ∧ (mkHook 40002 0 3).hookEn = true ∧
      FirstAt sml.store (sml.addrOf .coil (0#16).toNat) 3 (mkHook 1 0 5) ∧ sml.hregOnly = false ∧
      (scripted sml [.never]).hookScript = .never :: [] := by
  refine ⟨⟨_, rfl, ?_, rfl, ?_⟩, ⟨_, rfl, ?_, rfl, rfl⟩, rfl, firstAt_of rfl rfl, rfl, firstAt_of rfl rfl, rfl, rfl⟩
  · intro h; cases h
  · intro _ _ h; cases h
  · intro h; cases h

theorem witness_StepNeverStops : ∃ o, step (onPdu f0 [0x99]) = o := ⟨_, rfl⟩

theorem witness_ExecRefusesOnlyIllFormedTerms :
    (Instr.wmr 0#16 1#16 2#8 [0#8, 1#8]).wellFormed = true ∧ (Instr.wmr 0#16 1#16 2#8 [0#8]).wellFormed = false := by
  decide

/-- The invariant holds of a state with an entry and a PDU to come, and that state steps. -/
theorem witness_StepKeepsInv :
    (onPdu (withStore [mk 40001 0x1234]) [0x03, 0, 0, 0, 1]).Inv ∧
      ∃ t, step (onPdu (withStore [mk 40001 0x1234]) [0x03, 0, 0, 0, 1]) = .next t := by
  refine ⟨⟨by decide, ⟨⟨.nil, by simp [onPdu, withStore, State.reset]⟩, ⟨.nil, by simp [onPdu, withStore, State.reset]⟩,
    by simp [onPdu, withStore, State.reset], by simp [onPdu, withStore, State.reset],
    by simp [onPdu, withStore, State.reset], by simp [onPdu, withStore, State.reset]⟩,
    ⟨?_, ?_, by simp [onPdu, withStore, State.reset, Config.params]⟩, ?_, ?_⟩, _, rfl⟩
  · intro e he
    cases List.mem_singleton.1 he
    exact ⟨.hreg, 0#16, rfl⟩
  · intro e he
    cases List.mem_singleton.1 he
    decide
  · intro h; cases h
  · intro _; exact .inl ⟨rfl, rfl⟩

theorem witness_EntriesPersist :
    (∃ t, step (onCfg f0 (.add .hreg 9#16 1#16 false 0)) = .next t) ∧
      ∀ strap rest, (onCfg f0 (.add .hreg 9#16 1#16 false 0)).inputs ≠ .reset strap :: rest :=
  ⟨⟨_, rfl⟩, (by intro _ _ h; cases h)⟩

/-- A transaction behind an exception reply, which still stands in the buffers. -/
theorem witness_PreviousReplyNeverLeaks : ∃ t,
    (onPdu (f0.raise .slaveFailure 0x06#8) [0x03, 0, 0, 0, 1]).ready = true ∧
      step (onPdu (f0.raise .slaveFailure 0x06#8) [0x03, 0, 0, 0, 1]) = .next t ∧ t.phase = .idle :=
  ⟨_, rfl, rfl, rfl⟩

theorem witness_TransactionLeavesTheRestAlone : ∃ t,
    (onPdu f0 [0x99]).ready = true ∧ (onPdu f0 [0x99]).inputs = .pdu (bytes [0x99]) :: [] ∧
      step (onPdu f0 [0x99]) = .next t ∧ t.phase = .idle :=
  ⟨_, rfl, rfl, rfl, rfl⟩

/-- Two hooked items: the first is answered, the second never. And one coil that waits at once. -/
theorem witness_MultiWritesWaitForTheirHook :
    let s := scripted (withStore [mkHook 40001 0 3, mkHook 40002 0 4]) [.answer 1#16, .never]
    let u := scripted sml [.never]
    s.params.Ok ∧ [0x00#8, 0x0A#8, 0x01#8, 0x02#8].length = (4#8).toNat ∧ WmrLegal 2#16 4#8 ∧
      1 < (2#16).toNat ∧ RangePresent s .hreg (0#16).toNat (2#16).toNat ∧
      FirstAt s.store (s.addrOf .hreg ((0#16).toNat + 1)) 1 (mkHook 40002 0 4) ∧ (mkHook 40002 0 4).hookEn = true ∧
      ScriptedThenNever s .hreg (0#16).toNat 1 0x10#8 (payloadRegister [0x00#8, 0x0A#8, 0x01#8, 0x02#8])
        (fun _ => 1#16) [] ∧
      u.params.Ok ∧ u.hregOnly = false ∧ WmcLegal 1#16 1#8 ∧ RangePresent u .coil (0#16).toNat (1#16).toNat ∧
      FirstAt u.store (u.addrOf .coil ((0#16).toNat + 0)) 3 (mkHook 1 0 5) ∧
      ScriptedThenNever u .coil (0#16).toNat 0 0x0F#8 (payloadCoil [0x01#8]) (fun _ => 0#16) [] := by
  refine ⟨by decide, rfl, by decide, by decide, fun k hk => ?_, firstAt_of rfl rfl, rfl, ⟨?_, rfl⟩, by decide, rfl,
    by decide, fun k hk => ?_, firstAt_of rfl rfl, ⟨fun k _ _ hk => absurd hk (Nat.not_lt_zero k), rfl⟩⟩
  · have hk : k < 2 := hk
    interval_cases k <;> exact present_of rfl
  · intro k i e _ h he
    have hm : ∀ e ∈ [mkHook 40001 0 3, mkHook 40002 0 4], e.hookEn = true := by decide
    exact absurd he (by rw [hm e (List.mem_of_getElem? h.1)]; decide)
  · have hk : k < 1 := hk
    interval_cases k
    exact present_of rfl

theorem witness_CfgWriteWaitsForItsHook :
    (onCfg (scripted sml [.never]) (.write .hreg 1#16 7#16)).ready = true ∧
      (onCfg (scripted sml [.never]) (.write .hreg 1#16 7#16)).inputs = .cfg (.write .hreg 1#16 7#16) :: [] ∧
      FirstAt sml.store (sml.addrOf .hreg (1#16).toNat) 2 (mkHook 40002 0 3) ∧ (mkHook 40002 0 3).hookEn = true ∧
      (scripted sml [.never]).hookScript = .never :: [] :=
  ⟨rfl, rfl, firstAt_of rfl rfl, rfl, rfl⟩

theorem witness_ParametersAreConstant :
    (∃ t, step (withRespCap 5 (onPdu f0 [0x99])) = .next t) ∧
      (∀ strap rest, (withRespCap 5 (onPdu f0 [0x99])).inputs ≠ .reset strap :: rest) ∧
      (∃ t, step { f0 with inputs := [.reset true] } = .next t) ∧
      ({ f0 with inputs := [.reset true] } : State).inputs = .reset true :: [] :=
  ⟨⟨_, rfl⟩, (by intro _ _ h; cases h), ⟨_, rfl⟩, rfl⟩

end Sys2Proof.Tests
end

section
/-! What every step keeps: the fields each frame leaves alone, the parts of the invariant under each move of the
outside agents, and the two statements of family 00_scope (O39, O46) from them. -/

namespace Sys2Proof.Machine

/-! ### The fields a handler and a configuration operation leave alone -/

section FrameFields
variable {s t : State}

theorem HandlerFrame.params (h : HandlerFrame s t) : t.params = s.params := by rw [h.rest]
theorem HandlerFrame.hregOnly (h : HandlerFrame s t) : t.hregOnly = s.hregOnly := by rw [h.rest]
theorem HandlerFrame.phase (h : HandlerFrame s t) : t.phase = s.phase := by rw [h.rest]
theorem HandlerFrame.req (h : HandlerFrame s t) : t.req = s.req := by rw [h.rest]
theorem HandlerFrame.reqLen (h : HandlerFrame s t) : t.reqLen = s.reqLen := by rw [h.rest]

theorem CfgFrame.params (h : CfgFrame s t) : t.params = s.params := by rw [h.rest]
theorem CfgFrame.hregOnly (h : CfgFrame s t) : t.hregOnly = s.hregOnly := by rw [h.rest]
theorem CfgFrame.phase (h : CfgFrame s t) : t.phase = s.phase := by rw [h.rest]
theorem CfgFrame.req (h : CfgFrame s t) : t.req = s.req := by rw [h.rest]
theorem CfgFrame.reqLen (h : CfgFrame s t) : t.reqLen = s.reqLen := by rw [h.rest]
theorem CfgFrame.resp (h : CfgFrame s t) : t.resp = s.resp := by rw [h.rest]
theorem CfgFrame.respLen (h : CfgFrame s t) : t.respLen = s.respLen := by rw [h.rest]
theorem CfgFrame.replyMode (h : CfgFrame s t) : t.replyMode = s.replyMode := by rw [h.rest]

end FrameFields

/-! ### A step that answers a next state -/

/-- A pending reset is taken at any time (R145). -/
theorem step_reset {s : State} {strap : Bool} {rest : List Input} (h : s.inputs = .reset strap :: rest) :
    step s = .next (State.resetBy { s with inputs := rest } strap) := by rw [step, h]; rfl

/-- Where a step that stops nowhere can lead: nothing was taken, or a reset, a configuration operation or a
whole transaction was. -/
theorem step_next_cases {s t : State} (h : step s = .next t) :
    (t = s ∧ ∀ strap rest, s.inputs ≠ .reset strap :: rest) ∨
    (∃ strap rest, s.inputs = .reset strap :: rest ∧ t = State.resetBy { s with inputs := rest } strap) ∨
    (∃ op rest, s.inputs = .cfg op :: rest ∧ s.ready = true ∧ t = cfgExec op { s with inputs := rest }) ∨
    (∃ bytes rest u, s.inputs = .pdu bytes :: rest ∧ s.ready = true ∧ bytes.length ≤ s.params.reqCap ∧
      HandlerFrame (s.acceptPdu bytes rest) u ∧ t = u.endTransaction) := by
  rcases step_cases s with ⟨hi, hs⟩ | ⟨strap, rest, hi, hs⟩ | ⟨op, rest, hi, ⟨hr, hs⟩ | ⟨-, hs⟩⟩ |
      ⟨bytes, rest, hi, ⟨-, hs⟩ | ⟨-, -, hs⟩ | ⟨hr, hl, u, -, hu, hs⟩⟩ <;>
    cases hs.symm.trans h
  · exact .inl ⟨rfl, by simp [hi]⟩
  · exact .inr (.inl ⟨strap, rest, hi, rfl⟩)
  · exact .inr (.inr (.inl ⟨op, rest, hi, hr, rfl⟩))
  · exact .inl ⟨rfl, by simp [hi]⟩
  · exact .inl ⟨rfl, by simp [hi]⟩
  · exact .inr (.inr (.inr ⟨bytes, rest, u, hi, hr, hl, hu, rfl⟩))

/-! ### The parameters (R5) -/

theorem step_params {s t : State} (h : step s = .next t) : t.params = s.params := by
  rcases step_next_cases h with ⟨rfl, -⟩ | ⟨strap, rest, -, rfl⟩ | ⟨op, rest, -, -, rfl⟩ |
    ⟨bytes, rest, u, -, -, -, hu, rfl⟩
  · rfl
  · rfl
  · exact (cfgExec_frame op _).params
  · exact (State.endTransaction_params u).trans hu.params

/-- Only a reset changes the strap's field (R22). -/
theorem step_hregOnly {s t : State} (h : step s = .next t)
    (hn : ∀ strap rest, s.inputs ≠ .reset strap :: rest) : t.hregOnly = s.hregOnly := by
  rcases step_next_cases h with ⟨rfl, -⟩ | ⟨strap, rest, hi, -⟩ | ⟨op, rest, -, -, rfl⟩ |
    ⟨bytes, rest, u, -, -, -, hu, rfl⟩
  · rfl
  · exact absurd hi (hn strap rest)
  · exact (cfgExec_frame op _).hregOnly
  · exact (State.endTransaction_hregOnly u).trans hu.hregOnly

theorem step_reset_hregOnly {s t : State} (h : step s = .next t) {strap : Bool} {rest : List Input}
    (hi : s.inputs = .reset strap :: rest) : t.hregOnly = strap := by
  cases (step_reset hi).symm.trans h
  rfl

/-- Settles O46: R5's values at reset are the definition's, and each kind of step has its own lemma. -/
theorem parametersAreConstant : Obligations.ParametersAreConstant := by
  refine ⟨rfl, by decide, rfl, fun s t h => ⟨step_params h, step_hregOnly h, fun strap rest hi => ?_⟩⟩
  exact step_reset_hregOnly h hi

/-! ### The invariant's parts, by the fields each of them reads -/

/-- The byte spaces are untouched when both buffers, both lengths and the capacities are. -/
theorem State.BuffersOk.of_eq {s t : State} (h : s.BuffersOk) (hp : t.params = s.params) (hreq : t.req = s.req)
    (hreqLen : t.reqLen = s.reqLen) (hresp : t.resp = s.resp) (hrespLen : t.respLen = s.respLen) :
    t.BuffersOk where
  req_wf := by rw [hreq]; exact h.req_wf
  resp_wf := by rw [hresp]; exact h.resp_wf
  req_space := by rw [hreq, hp]; exact h.req_space
  resp_space := by rw [hresp, hp]; exact h.resp_space
  req_len := by rw [hreqLen, hp]; exact h.req_len
  resp_len := by rw [hrespLen, hp]; exact h.resp_len

/-- The store is well-formed as long as no entry's address or hook changes: values are free (R10). -/
theorem State.StoreOk.of_fixedPart {s t : State} (h : s.StoreOk) (hp : t.params = s.params)
    (hm : t.store.map Entry.fixedPart = s.store.map Entry.fixedPart) : t.StoreOk := by
  have old : ∀ e ∈ t.store, ∃ d ∈ s.store, d.address = e.address ∧ d.hookId = e.hookId := by
    intro e he
    have hmem : e.fixedPart ∈ s.store.map Entry.fixedPart := hm ▸ List.mem_map_of_mem he
    obtain ⟨d, hd, hde⟩ := List.mem_map.1 hmem
    simp only [Entry.fixedPart, Prod.mk.injEq] at hde
    exact ⟨d, hd, hde.1, hde.2.2⟩
  have hlen : t.store.length = s.store.length := by simpa using congrArg List.length hm
  refine ⟨fun e he => ?_, fun e he => ?_, fun cap hcap => ?_⟩
  · obtain ⟨d, hd, haddr, -⟩ := old e he
    simpa only [haddr, State.addrOf, hp] using h.addresses d hd
  · obtain ⟨d, hd, -, hid⟩ := old e he
    rw [← hid, hp]
    exact h.hook_ids d hd
  · rw [hlen]
    exact h.capacity cap (hp ▸ hcap)

/-- The invariant does not read the moves still to come. -/
theorem State.Inv.withInputs {s : State} (h : s.Inv) (rest : List Input) :
    ({ s with inputs := rest } : State).Inv :=
  ⟨h.params, h.buffers.of_eq rfl rfl rfl rfl rfl, h.store.of_fixedPart rfl rfl, h.phase, h.reply⟩

/-! ### Reset (R24, R145) -/

theorem State.resetBy_inv {s : State} (h : s.params.Ok) (strap : Bool) : (s.resetBy strap).Inv where
  params := h
  buffers := ⟨Memory.wf_nil, Memory.wf_nil, by simp, by simp, Nat.zero_le _, Nat.zero_le _⟩
  store := ⟨by simp, by simp, fun cap _ => Nat.zero_le cap⟩
  phase := fun hp => by cases hp
  reply := fun _ => .inl ⟨rfl, rfl⟩

/-! ### The configuration port (R79 to R84) -/

/-- `cfg_add` appends an entry its kind and offset name, with a truncated identifier, and only below the
capacity (R70, R83). -/
theorem cfgAdd_storeOk {s : State} (h : s.StoreOk) (kind : Kind) (off init : Word) (hookEn : Bool)
    (hookId : HookId) : (cfgAdd kind off init hookEn hookId s).StoreOk := by
  rcases cfgAdd_cases kind off init hookEn hookId s with ⟨-, hc⟩ | ⟨hroom, hc⟩ <;> rw [hc]
  · exact h.of_fixedPart rfl rfl
  · refine ⟨fun e he => ?_, fun e he => ?_, fun cap hcap => ?_⟩
    · rcases List.mem_append.1 he with he | he
      · exact h.addresses e he
      · cases List.mem_singleton.1 he
        exact ⟨kind, off, rfl⟩
    · rcases List.mem_append.1 he with he | he
      · exact h.hook_ids e he
      · cases List.mem_singleton.1 he
        exact Nat.mod_lt _ (Nat.two_pow_pos _)
    · have hle := h.capacity cap hcap
      have hne : cap ≠ s.store.length := fun heq => hroom (heq ▸ hcap)
      simp only [List.length_append, List.length_singleton]
      omega

theorem cfgExec_storeOk {s : State} (h : s.StoreOk) (op : CfgOp) : (cfgExec op s).StoreOk := by
  have hp := (cfgExec_frame op s).params
  cases op with
  | add kind off init hookEn hookId => exact cfgAdd_storeOk h kind off init hookEn hookId
  | read _ _ | write _ _ _ | enum _ => exact h.of_fixedPart hp (cfgExec_hooks (by simp) s)

theorem cfgExec_inv {s : State} (h : s.Inv) (hr : s.ready = true) (op : CfgOp) : (cfgExec op s).Inv := by
  have hf := cfgExec_frame op s
  have hidle : (cfgExec op s).phase = .idle := hf.phase.trans ((ready_iff s).1 hr).1
  refine ⟨hf.params ▸ h.params, h.buffers.of_eq hf.params hf.req hf.reqLen hf.resp hf.respLen,
    cfgExec_storeOk h.store op, fun hp => ?_, ?_⟩
  · rw [hidle] at hp
    cases hp
  · rw [State.ReplyOk, hf.phase, hf.replyMode, hf.respLen]
    exact h.reply

/-! ### A transaction (R85 to R92) -/

/-- Bytes written from index 0 on stay inside a capacity they fit. -/
theorem Memory.writeBytes_space {m : Memory} {n : Nat} (h : ∀ c ∈ m, c.1 < n) {bytes : List Byte}
    (hl : bytes.length ≤ n) : ∀ c ∈ m.writeBytes 0 bytes, c.1 < n := by
  intro c hc
  rcases Memory.mem_writeBytes bytes hc with hc | hc
  · omega
  · exact h c hc

/-- An accepted PDU fits the request buffer, and the response buffer is as it was (R85). -/
theorem State.acceptPdu_buffersOk {s : State} (h : s.BuffersOk) {bytes : List Byte}
    (hl : bytes.length ≤ s.params.reqCap) (rest : List Input) : (s.acceptPdu bytes rest).BuffersOk where
  req_wf := Memory.wf_writeBytes bytes 0 Memory.wf_nil
  resp_wf := h.resp_wf
  req_space := Memory.writeBytes_space (by simp) hl
  resp_space := h.resp_space
  req_len := hl
  resp_len := Nat.zero_le _

/-- A handler leaves the request alone and writes no more of the response than fits; the two bytes of an
exception always fit, since the capacity is at least 5 (R5, R118). -/
theorem HandlerFrame.buffersOk {s t : State} (h : HandlerFrame s t) (hp : s.params.Ok) (hb : s.BuffersOk) :
    t.BuffersOk := by
  obtain ⟨-, -, hcap⟩ := hp
  have hlen := hb.resp_len
  have response : Memory.wf t.resp ∧ (∀ c ∈ t.resp, c.1 < s.params.respCap) ∧ t.respLen ≤ s.params.respCap := by
    rcases h.reply with ⟨-, -, -, hresp, hl⟩ | ⟨-, -, hresp, hl⟩ | ⟨-, -, -, -, hl, bytes, hbytes, hresp⟩ <;>
      rw [hresp]
    · exact ⟨hb.resp_wf, hb.resp_space, by omega⟩
    · exact ⟨hb.resp_wf, hb.resp_space, by omega⟩
    · exact ⟨Memory.wf_writeBytes bytes 0 hb.resp_wf, Memory.writeBytes_space hb.resp_space (by omega), by omega⟩
  obtain ⟨hwf, hspace, hle⟩ := response
  exact {
    req_wf := by rw [h.req]; exact hb.req_wf
    resp_wf := hwf
    req_space := by rw [h.req, h.params]; exact hb.req_space
    resp_space := by rw [h.params]; exact hspace
    req_len := by rw [h.reqLen, h.params]; exact hb.req_len
    resp_len := by rw [h.params]; exact hle }

/-- The end of a transaction leaves `Processing` only to a call that waits (R92, R149). -/
theorem State.endTransaction_phaseOk (s : State) : s.endTransaction.PhaseOk := by
  by_cases hw : s.hookWait = none
  · rw [State.endTransaction_idle hw]
    intro hp
    cases hp
  · rw [State.endTransaction_waiting hw]
    exact fun _ => hw

/-- A completed transaction replies with the request or with 2 to 252 bytes (R94, R117); one that waits is not
in `Idle`. -/
theorem HandlerFrame.endTransaction_replyOk {s t : State} (h : HandlerFrame s t) (hphase : s.phase = .processing)
    (hlen : s.respLen = 0) : t.endTransaction.ReplyOk := by
  intro hidle
  simp only [State.endTransaction_replyMode, State.endTransaction_respLen]
  rcases h.reply with ⟨hw, -⟩ | ⟨-, hm, -, hl⟩ | ⟨-, hm, h2, h252, -⟩
  · rw [State.endTransaction_waiting hw, h.phase, hphase] at hidle
    cases hidle
  · exact .inr (.inl ⟨hm, hl.trans hlen⟩)
  · exact .inr (.inr ⟨hm, h2, h252⟩)

theorem transaction_inv {s t : State} (h : s.Inv) {bytes : List Byte} {rest : List Input}
    (hl : bytes.length ≤ s.params.reqCap) (hf : HandlerFrame (s.acceptPdu bytes rest) t) :
    t.endTransaction.Inv := by
  have hp : t.endTransaction.params = s.params := (State.endTransaction_params t).trans hf.params
  have hb : t.BuffersOk := hf.buffersOk h.params (State.acceptPdu_buffersOk h.buffers hl rest)
  refine ⟨hp ▸ h.params, hb.of_eq (by simp) (by simp) (by simp) (by simp) (by simp), h.store.of_fixedPart hp ?_,
    State.endTransaction_phaseOk t, hf.endTransaction_replyOk rfl rfl⟩
  rw [State.endTransaction_store]
  exact hf.hooks

/-! ### The step -/

/-- Settles O39, one lemma per move of the outside agents. -/
theorem stepKeepsInv : Obligations.StepKeepsInv := by
  intro s t hinv hstep
  rcases step_next_cases hstep with ⟨rfl, -⟩ | ⟨strap, rest, -, rfl⟩ | ⟨op, rest, -, hr, rfl⟩ |
    ⟨bytes, rest, u, -, -, hl, hu, rfl⟩
  · exact hinv
  · exact State.resetBy_inv (hinv.withInputs rest).params strap
  · exact cfgExec_inv (hinv.withInputs rest) hr op
  · exact transaction_inv hinv hl hu

end Sys2Proof.Machine
end

section
/-! The state's own rules (family 10_state): what a configuration operation and a transaction do to the store, the
request and the reply, and the statements O41, O40, O25, O43 and O34 from them. -/

namespace Sys2Proof.Machine

/-! ### Entries persist (R10, R11, R140) -/

/-- `cfg_add` keeps every entry, and its one new entry stands behind them (R80, R83). -/
theorem cfgAdd_fixedPart (kind : Kind) (off init : Word) (hookEn : Bool) (hookId : HookId) (s : State) :
    (cfgAdd kind off init hookEn hookId s).store.map Entry.fixedPart = s.store.map Entry.fixedPart ∨
    (cfgAdd kind off init hookEn hookId s).store.map Entry.fixedPart =
      s.store.map Entry.fixedPart ++ [(s.addrOf kind off.toNat, hookEn, hookId % 2 ^ s.params.hookIdW)] := by
  rcases cfgAdd_cases kind off init hookEn hookId s with ⟨-, h⟩ | ⟨-, h⟩ <;> rw [h]
  · exact .inl rfl
  · exact .inr List.map_append

/-- A step without a reset takes nothing, an operation of the configuration port, or a PDU, and only `cfg_add` of
these changes the list of addresses and hooks. -/
theorem step_fixedPart {s t : State} (h : step s = .next t) (hn : ∀ strap rest, s.inputs ≠ .reset strap :: rest) :
    t.store.map Entry.fixedPart = s.store.map Entry.fixedPart ∨
    ∃ kind off init hookEn hookId rest, s.inputs = .cfg (.add kind off init hookEn hookId) :: rest ∧
      t.store.map Entry.fixedPart =
        s.store.map Entry.fixedPart ++ [(s.addrOf kind off.toNat, hookEn, hookId % 2 ^ s.params.hookIdW)] := by
  rcases step_next_cases h with ⟨rfl, -⟩ | ⟨strap, rest, hi, -⟩ | ⟨op, rest, hi, -, rfl⟩ |
    ⟨bytes, rest, u, -, -, -, hu, rfl⟩
  · exact .inl rfl
  · exact absurd hi (hn strap rest)
  · cases op with
    | add kind off init hookEn hookId =>
      rcases cfgAdd_fixedPart kind off init hookEn hookId { s with inputs := rest } with hsame | hadd
      · exact .inl hsame
      · exact .inr ⟨kind, off, init, hookEn, hookId, rest, hi, hadd⟩
    | read _ _ | write _ _ _ | enum _ => exact .inl (cfgExec_hooks (by simp) { s with inputs := rest })
  · rw [State.endTransaction_store]
    exact .inl hu.hooks

/-- Settles O41: a step that takes no `cfg_add` adds nothing, and one that does adds its one entry or, to a full
store, nothing. -/
theorem entriesPersist : Obligations.EntriesPersist := by
  intro s t hstep hreset
  rcases step_fixedPart hstep hreset with hsame | ⟨kind, off, init, hookEn, hookId, rest, hi, hadd⟩
  · exact ⟨[], by rw [hsame, List.append_nil], fun hne => absurd rfl hne⟩
  · exact ⟨_, hadd, fun _ => ⟨kind, off, init, hookEn, hookId, rest, hi, rfl⟩⟩

/-! ### Reset (R24) -/

/-- Settles O40: this hardware's parameters meet R5's constraints, and the state after reset is what a reset of it
gives. -/
theorem resetHasInv : Obligations.ResetHasInv :=
  State.resetBy_inv (s := State.reset) (by decide) Config.hregOnly

/-! ### A duplicate entry (R12, R70) -/

theorem find_of_present {es : List Entry} {a : Addr} (h : Present es a) : ∃ i, find es a = some i := by
  obtain ⟨e, he, ha⟩ := h
  rw [← Option.ne_none_iff_exists']
  exact fun hn => find_none.1 hn e he ha

/-- An entry appended behind another with its address is found by no lookup (R12). -/
theorem find_append_duplicate {es : List Entry} {e : Entry} (h : Present es e.address) (a : Addr) :
    find (es ++ [e]) a = find es a := by
  cases ha : find es a with
  | some i => exact find_append ha [e]
  | none =>
    have absent : ∀ d ∈ es, d.address ≠ a := find_none.1 ha
    rw [find_none]
    intro d hd
    rcases List.mem_append.1 hd with hd | hd
    · exact absent d hd
    · obtain ⟨d', hd', hda⟩ := h
      rw [List.mem_singleton.1 hd, ← hda]
      exact absent d' hd'

/-- A duplicate is read by no register read (R12, R72). -/
theorem valueAt_append_duplicate {es : List Entry} {e : Entry} (h : Present es e.address) (a : Addr) :
    valueAt (es ++ [e]) a = valueAt es a := by
  have hlookup : lookup (es ++ [e]) a = lookup es a := by
    unfold lookup
    rw [find_append_duplicate h]
    cases ha : find es a with
    | none => rfl
    | some i => exact List.getElem?_append_left (find_lt ha)
  unfold valueAt
  rw [hlookup]

/-- A write changes no entry but the one its address's lookup means (R73). -/
theorem storeWrite_getElem?_of_find_ne {s : State} {a : Addr} {j : Nat} (h : find s.store a ≠ some j) (v : Word)
    (src : Byte) : (s.storeWrite a v src).2.store[j]? = s.store[j]? := by
  have other {i : Nat} (hf : find s.store a = some i) (w : Word) :
      (setValueAt s.store i w)[j]? = s.store[j]? := by
    have hij : j ≠ i := fun hji => h (hji ▸ hf)
    simp [getElem?_setValueAt, hij]
  rcases storeWrite_cases s a v src with ⟨-, hw⟩ | ⟨i, e, hf, -, ⟨-, hw⟩ | ⟨-, w, t, -, -, hw⟩ | ⟨-, rest, -, hw⟩⟩ <;>
    rw [hw]
  · exact other hf v
  · exact other hf w

/-- A configuration operation is taken by an engine that is ready (R79). -/
theorem step_cfg {s : State} {op : CfgOp} {rest : List Input} (hr : s.ready = true)
    (hi : s.inputs = .cfg op :: rest) : step s = .next (cfgExec op { s with inputs := rest }) := by
  rw [step, hi]
  simp [takeInput, hr]

/-- Settles O25: every lookup of the longer store is one of the old store, so it never means the new entry. -/
theorem duplicateEntryIsShadowed : Obligations.DuplicateEntryIsShadowed := by
  intro s kind off init hookEn hookId rest hr hi hroom hpresent
  refine ⟨_, step_cfg hr hi, ?_⟩
  rcases cfgAdd_cases kind off init hookEn hookId { s with inputs := rest } with ⟨hfull, -⟩ | ⟨-, hadd⟩
  · exact absurd hfull hroom
  · rw [cfgExec, hadd]
    refine ⟨by simp, by simp, valueAt_append_duplicate hpresent, find_append_duplicate hpresent, fun a v src => ?_⟩
    rw [storeWrite_getElem?_of_find_ne]
    · simp
    · dsimp only
      rw [find_append_duplicate hpresent]
      exact fun hf => Nat.lt_irrefl _ (find_lt hf)

/-! ### The request a transaction was given (R17, R48) -/

@[simp] theorem State.acceptPdu_reqBytes (s : State) (bytes : List Byte) (rest : List Input) :
    (s.acceptPdu bytes rest).reqBytes = bytes := by
  refine List.ext_getElem (by simp [State.reqBytes]) fun i _ hi => ?_
  simp [State.reqBytes, Memory.read_writeBytes, hi]

@[simp] theorem State.endTransaction_reqBytes (s : State) : s.endTransaction.reqBytes = s.reqBytes := by
  simp [State.reqBytes]

theorem HandlerFrame.reqBytes {s t : State} (h : HandlerFrame s t) : t.reqBytes = s.reqBytes := by
  rw [State.reqBytes, h.req, h.reqLen]
  rfl

theorem HandlerFrame.cfgOut {s t : State} (h : HandlerFrame s t) : t.cfgOut = s.cfgOut := by rw [h.rest]
theorem HandlerFrame.inputs {s t : State} (h : HandlerFrame s t) : t.inputs = s.inputs := by rw [h.rest]

/-! ### A transaction and its end (R85 to R92) -/

section Transaction
variable {s : State} {bytes : List Byte} {rest : List Input}

/-- A PDU that fits the request buffer is taken by an engine that is ready, and its transaction is dispatch, inside
the frame of a handler, and the end. -/
theorem step_pdu (hr : s.ready = true) (hi : s.inputs = .pdu bytes :: rest) (hl : bytes.length ≤ s.params.reqCap) :
    ∃ u, dispatch (s.acceptPdu bytes rest) = .next u ∧ HandlerFrame (s.acceptPdu bytes rest) u ∧
      step s = .next u.endTransaction := by
  obtain ⟨u, hu, hf⟩ := dispatch_cases (s.acceptPdu bytes rest)
  refine ⟨u, hu, hf, ?_⟩
  rw [step, hi]
  simp [takeInput, hr, processPdu, hl, hu, finish]

/-- Only a PDU that fits the request buffer is not refused (log 14). -/
theorem length_le_reqCap_of_step_pdu {t : State} (hr : s.ready = true) (hi : s.inputs = .pdu bytes :: rest)
    (h : step s = .next t) : bytes.length ≤ s.params.reqCap := by
  by_contra hl
  rw [step, hi] at h
  simp [takeInput, hr, processPdu, hl] at h

end Transaction

/-- The end of a transaction that is `Idle` afterwards waited for no hook (R92, R149). -/
theorem State.hookWait_of_endTransaction_idle {s : State} (hp : s.phase = .processing)
    (h : s.endTransaction.phase = .idle) : s.hookWait = none := by
  by_contra hw
  rw [State.endTransaction_waiting hw, hp] at h
  cases h

/-- A handler that waits for no hook ends with `Echo`, or with `Normal` and at least the two bytes of an
exception (R124). -/
theorem HandlerFrame.replyMode_of_not_waiting {s t : State} (h : HandlerFrame s t) (hw : t.hookWait = none) :
    t.replyMode = .echo ∨ t.replyMode = .normal ∧ 2 ≤ t.respLen := by
  rcases h.reply with ⟨hn, -⟩ | ⟨-, hm, -⟩ | ⟨-, hm, hl, -⟩
  · exact absurd hw hn
  · exact .inl hm
  · exact .inr ⟨hm, hl⟩

/-- Settles O43: the frame of the handler, between acceptance and the end of the transaction, which write none of
these fields but as stated. -/
theorem transactionLeavesTheRestAlone : Obligations.TransactionLeavesTheRestAlone := by
  intro s t bytes rest hr hi hstep
  obtain ⟨u, -, hf, hu⟩ := step_pdu hr hi (length_le_reqCap_of_step_pdu hr hi hstep)
  cases hu.symm.trans hstep
  refine ⟨?_, ?_, ?_, ?_, ?_, ?_, fun hidle => ?_⟩
  · simp [hf.reqBytes]
  · simp [hf.reqLen]
  · simp [hf.hregOnly]
  · simp [hf.cfgOut]
  · simp [hf.params]
  · simp [hf.inputs]
  · have hw := State.hookWait_of_endTransaction_idle hf.phase hidle
    rw [State.endTransaction_replyMode]
    rcases hf.replyMode_of_not_waiting hw with hm | ⟨hm, -⟩ <;> simp [hm]

/-! ### The first byte of a response (R54 to R56, R69) -/

/-- A response built for function code `fc`, once its transaction waits for no hook, begins with `fc` or with `fc`
and bit 7 set. -/
def BeginsWithCode (fc : Byte) (t : State) : Prop :=
  t.hookWait = none → t.replyMode = .normal → t.resp.read 0 = fc ∨ t.resp.read 0 = fc ||| 0x80#8

section FirstByte
variable {s : State} {fc : Byte}

theorem raise_beginsWithCode (s : State) (exc : Exc) (fc : Byte) : BeginsWithCode fc (s.raise exc fc) := by
  intro _ _
  right
  simp [Memory.read_writeBytes, formatEX]

theorem respond_beginsWithCode (s : State) (fc : Byte) (bytes : List Byte) :
    BeginsWithCode fc (s.respond (fc :: bytes)) := by
  intro _ _
  left
  simp [Memory.read_writeBytes]

theorem echo_beginsWithCode (s : State) (fc : Byte) : BeginsWithCode fc s.echo :=
  fun _ hm => by cases hm

theorem beginsWithCode_of_waiting {t : State} (h : t.hookWait ≠ none) : BeginsWithCode fc t :=
  fun hw => absurd hw h

theorem alloc_beginsWithCode {length : Nat} {rest : State → State} (h : ∀ t, BeginsWithCode fc (rest t)) :
    BeginsWithCode fc (s.alloc fc length rest) := by
  unfold State.alloc
  split
  · exact raise_beginsWithCode _ _ _
  · exact h _

theorem dispatched_beginsWithCode {handler : State → State} (h : BeginsWithCode fc (handler s)) :
    BeginsWithCode fc (s.dispatched fc handler) := by
  unfold State.dispatched
  split
  · exact raise_beginsWithCode _ _ _
  · exact h

theorem readRegs_beginsWithCode (fc : Byte) (kind : Kind) (start count : Word) (s : State) :
    BeginsWithCode fc (readRegs fc kind start count s) := by
  unfold readRegs
  split
  · exact raise_beginsWithCode _ _ _
  · split
    · exact raise_beginsWithCode _ _ _
    · exact alloc_beginsWithCode fun t => respond_beginsWithCode t fc _

theorem readBits_beginsWithCode (fc : Byte) (kind : Kind) (start count : Word) (s : State) :
    BeginsWithCode fc (readBits fc kind start count s) := by
  unfold readBits
  split
  · exact raise_beginsWithCode _ _ _
  · split
    · exact raise_beginsWithCode _ _ _
    · exact alloc_beginsWithCode fun t => respond_beginsWithCode t fc _

theorem writeSingle_beginsWithCode (fc : Byte) (kind : Kind) (off value : Word) (s : State) :
    BeginsWithCode fc (writeSingle fc kind off value s) := by
  obtain ⟨-, hwait, -⟩ := storeWrite_frame s (s.addrOf kind off.toNat) value fc
  rcases hw : s.storeWrite (s.addrOf kind off.toNat) value fc with ⟨st, t⟩
  rw [hw] at hwait
  cases st with
  | absent => rw [writeSingle_absent hw]; exact raise_beginsWithCode _ _ _
  | waiting => rw [writeSingle_waiting hw]; exact beginsWithCode_of_waiting (hwait rfl).1
  | ok =>
    rw [writeSingle_ok hw]
    split
    · exact echo_beginsWithCode _ _
    · exact raise_beginsWithCode _ _ _

theorem writeMultiple_beginsWithCode (fc : Byte) (kind : Kind) (start count : Word) (valueOk : Bool)
    (values : List Word) (s : State) : BeginsWithCode fc (writeMultiple fc kind start count valueOk values s) := by
  unfold writeMultiple
  split
  · exact raise_beginsWithCode _ _ _
  · split
    · exact raise_beginsWithCode _ _ _
    · refine alloc_beginsWithCode fun t => ?_
      obtain ⟨-, hwait, -⟩ := writeItems_frame kind start.toNat fc values 0 t
      rcases hw : State.writeItems kind start.toNat fc values 0 t with ⟨st, u⟩
      rw [hw] at hwait
      cases st with
      | ok => exact respond_beginsWithCode u fc _
      | waiting => exact beginsWithCode_of_waiting (hwait rfl).1
      | absent => exact raise_beginsWithCode _ _ _

/-- Every handler answers with its own function code (R54 to R56, R59, R69). -/
theorem exec_beginsWithCode {i : Instr} {t : State} (h : exec i s = .next t) : BeginsWithCode (instrFc i) t := by
  cases i with
  | rc start count => cases h; exact dispatched_beginsWithCode (readBits_beginsWithCode _ _ _ _ _)
  | rdi start count => cases h; exact dispatched_beginsWithCode (readBits_beginsWithCode _ _ _ _ _)
  | rhr start count => cases h; exact readRegs_beginsWithCode _ _ _ _ _
  | rir start count => cases h; exact dispatched_beginsWithCode (readRegs_beginsWithCode _ _ _ _ _)
  | wsc off value =>
    cases h
    refine dispatched_beginsWithCode ?_
    split
    · exact raise_beginsWithCode _ _ _
    · exact writeSingle_beginsWithCode _ _ _ _ _
  | wsr off value => cases h; exact writeSingle_beginsWithCode _ _ _ _ _
  | wmc start count bc payload =>
    rw [exec, execWmc] at h
    split at h <;> cases h
    exact dispatched_beginsWithCode (writeMultiple_beginsWithCode _ _ _ _ _ _ _)
  | wmr start count bc payload =>
    rw [exec, execWmr] at h
    split at h <;> cases h
    exact writeMultiple_beginsWithCode _ _ _ _ _ _ _

/-- So does the dispatcher, known function code or not (R88). -/
theorem dispatch_beginsWithCode {t : State} (h : dispatch s = .next t) : BeginsWithCode (s.reqByte 0) t := by
  unfold dispatch at h
  split at h
  · rename_i i hi
    rw [← decodeAt_fc hi]
    exact exec_beginsWithCode h
  · cases h
    exact raise_beginsWithCode _ _ _

end FirstByte

/-! ### Short requests are answered (R17, R63) -/

/-- Under an environment that answers, a handler leaves no call waiting (R94, R149). -/
theorem HandlerFrame.hookWait_of_answering {s t : State} (h : HandlerFrame s t) (hs : Answering s)
    (hw : s.hookWait = none) : t.hookWait = none := by
  rcases h.reply with ⟨-, hnever, -⟩ | ⟨ht, -⟩ | ⟨ht, -⟩
  · exact absurd rfl (hs _ hnever)
  · exact ht.trans hw
  · exact ht.trans hw

theorem State.reply_echo {s : State} (h : s.replyMode = .echo) : s.reply = s.reqBytes := by
  rw [State.reply, h]

theorem State.head?_reply_normal {s : State} (h : s.replyMode = .normal) (hl : 0 < s.respLen) :
    s.reply.head? = some (s.resp.read 0) := by
  rw [State.reply, h]
  simp [State.respBytes, List.head?_range, Nat.ne_of_gt hl]

/-- Settles O34: whatever the missing bytes decode to, `Echo` retransmits the request, and every handler and the
dispatcher answer with the code in byte 0. -/
theorem shortRequestsAreAnswered : Obligations.ShortRequestsAreAnswered := by
  intro s fc tail rest hr hi hl hanswering
  obtain ⟨u, hu, hf, hstep⟩ := step_pdu hr hi hl
  have hw : u.hookWait = none := hf.hookWait_of_answering hanswering ((ready_iff s).1 hr).2
  have hcode : (s.acceptPdu (fc :: tail) rest).reqByte 0 = fc := by simp [reqByte_acceptPdu]
  refine ⟨_, hstep, by rw [State.endTransaction_idle hw], ?_⟩
  rcases hf.replyMode_of_not_waiting hw with hm | ⟨hm, hlen⟩
  · left
    refine ⟨by simp [hm], ?_⟩
    rw [State.reply_echo (by simp [hm])]
    simp [hf.reqBytes]
  · right
    refine ⟨by simp [hm], ?_⟩
    rw [State.head?_reply_normal (by simp [hm]) (by simp; omega)]
    have hbegin := dispatch_beginsWithCode hu hw hm
    rw [hcode] at hbegin
    simpa using hbegin

end Sys2Proof.Machine
end

section
/-! The flat address space (family 20_memory): when two kinds share an address, when one kind does not, and the
statements O1 and O2 from these. -/

namespace Sys2Proof.Machine

/-- Two kinds whose bases differ by `d` share an address at offsets that differ by `d` (R42), whatever `ADDR_W` is:
both sums are the same before the `mod`. -/
theorem flat_alias (addrW : Nat) {kind kind' : Kind} {d off : Nat} (hb : kindBase kind' = kindBase kind + d)
    (hd : d ≤ off) : flat addrW kind off = flat addrW kind' (off - d) := by
  have hsum : off + kindBase kind = off - d + kindBase kind' := by omega
  rw [flat, flat, hsum]

/-- Where the `mod` never acts, one kind gives distinct sums distinct addresses, however far apart they are (R49). -/
theorem flat_injective_of_wide {addrW : Nat} (hw : 17 ≤ addrW) (kind : Kind) {m n : Nat} (hm : m ≤ 65535 + 1999)
    (hn : n ≤ 65535 + 1999) (h : flat addrW kind m = flat addrW kind n) : m = n := by
  rw [flat_eq hw kind hm, flat_eq hw kind hn] at h
  exact Nat.add_right_cancel h

/-- Settles O1: the formula is the definition with each kind's base, and `flat_eq` drops the `mod` from 17 bits on. -/
theorem flatAddressIsOffsetPlusBase : Obligations.FlatAddressIsOffsetPlusBase := by
  refine ⟨fun w off => ⟨rfl, rfl, rfl, rfl⟩, fun w off hw hoff => ?_, rfl⟩
  exact ⟨flat_eq hw .coil hoff, flat_eq hw .dinput hoff, flat_eq hw .ireg hoff, flat_eq hw .hreg hoff⟩

/-- Settles O2: each row of R42 is `flat_alias` at that difference of bases, and within a kind `flat` is injective
by the width. -/
theorem kindsAliasAndRangesDoNotWrap : Obligations.KindsAliasAndRangesDoNotWrap := by
  refine ⟨fun w off h => ⟨?_, ?_⟩, fun w off h => ?_, fun w off h => ⟨?_, ?_⟩, fun w off h => ?_,
    fun w kind m n hw hm hn => flat_injective_of_wide hw kind hm hn,
    fun w kind m n hw hm hn => flat_injective hw kind hm hn⟩
  all_goals exact flat_alias w rfl h

end Sys2Proof.Machine
end

section
/-! Encoding (family 30_encoding): the decoder and the encoder are inverse to each other, and the statements O27 to
O30 and O38 from that. -/

namespace Sys2Proof

open Machine

/-! ### The encoder (R51 to R53, R63) -/

/-- An encoding has its needed length (R63). -/
@[simp] theorem length_encode (i : Instr) : (encode i).length = instrLength i := by
  cases i with
  | rc start count => exact (Laws.EncodeShape.rc start count).2
  | rdi start count => exact (Laws.EncodeShape.rdi start count).2
  | rhr start count => exact (Laws.EncodeShape.rhr start count).2
  | rir start count => exact (Laws.EncodeShape.rir start count).2
  | wsc off value => exact (Laws.EncodeShape.wsc off value).2
  | wsr off value => exact (Laws.EncodeShape.wsr off value).2
  | wmc start count bc payload => exact (Laws.EncodeShape.wmc start count bc payload).2
  | wmr start count bc payload => exact (Laws.EncodeShape.wmr start count bc payload).2

/-! ### Decoding what was encoded -/

/-- The source of bytes `b` begins with the bytes `bs`. -/
def BeginsWith (b : Nat → Byte) (bs : List Byte) : Prop := ∀ k v, bs[k]? = some v → b k = v

theorem beginsWith_getD_append (bs rest : List Byte) : BeginsWith (fun k => (bs ++ rest).getD k 0#8) bs := by
  intro k v hk
  have hlt : k < bs.length := (List.getElem?_eq_some_iff.1 hk).1
  simp [List.getElem?_append_left hlt, hk]

section BeginsWith
variable {b : Nat → Byte} {fc bc : Byte} {field1 field2 : Word} {tail payload : List Byte}

/-- The function code and the two fields, whatever follows them (R57). -/
theorem BeginsWith.fields (h : BeginsWith b (encodeFields fc field1 field2 ++ tail)) :
    b 0 = fc ∧ fieldAt b 1 = field1 ∧ fieldAt b 3 = field2 := by
  refine ⟨h 0 _ rfl, ?_, ?_⟩
  · rw [fieldAt, h 1 _ rfl, h 2 _ rfl, be16_hi_lo]
  · rw [fieldAt, h 3 _ rfl, h 4 _ rfl, be16_hi_lo]

/-- The byte count and the payload of a multi-write, as far as it is read (R58). -/
theorem BeginsWith.payloadAt_eq (h : BeginsWith b (encodeFields fc field1 field2 ++ bc :: payload)) {valueOk : Bool}
    (hlen : payload.length = payloadNeed valueOk bc) : b 5 = bc ∧ payloadAt b valueOk bc = payload := by
  refine ⟨h 5 _ rfl, List.ext_getElem (by simp [hlen]) fun k _ hk => ?_⟩
  have hbyte : b (k + 6) = payload[k] := h (k + 6) _ (List.getElem?_eq_getElem hk)
  simp [payloadAt, Nat.add_comm 6 k, hbyte]

end BeginsWith

/-- A source that begins with the encoding of a well-formed instruction decodes to it. -/
theorem decodeAt_of_beginsWith {b : Nat → Byte} {i : Instr} (hw : i.wellFormed = true)
    (h : BeginsWith b (encode i)) : decodeAt b = some i := by
  cases i with
  | rc _ _ | rdi _ _ | rhr _ _ | rir _ _ | wsc _ _ | wsr _ _ =>
    obtain ⟨hfc, h1, h2⟩ := BeginsWith.fields (tail := []) h
    rw [decodeAt, hfc, h1, h2]
    rfl
  | wmc _ _ _ _ | wmr _ _ _ _ =>
    obtain ⟨hfc, h1, h2⟩ := BeginsWith.fields h
    obtain ⟨hbc, hp⟩ := BeginsWith.payloadAt_eq h (eq_of_beq hw)
    rw [decodeAt, hfc, h1, h2, hbc, hp]
    rfl

/-- A plain list decodes to what its front decodes to, when it is as long as that needs (R63, R64). -/
theorem decode_eq_ok_iff {bs rest : List Byte} {i : Instr} :
    decode bs = .ok (i, rest) ↔
      decodeAt (fun k => bs.getD k 0#8) = some i ∧ instrLength i ≤ bs.length ∧ bs.drop (instrLength i) = rest := by
  cases bs with
  | nil =>
    have hpos : 0 < instrLength i := by cases i <;> simp [instrLength]
    simp [decode, Nat.ne_of_gt hpos]
  | cons fc tail =>
    rw [decode]
    cases decodeAt (fun k => (fc :: tail).getD k 0#8) with
    | none => simp
    | some j =>
      by_cases hl : (fc :: tail).length < instrLength j
      · simp only [hl, if_true, Option.some.injEq]
        constructor
        · intro h; cases h
        · rintro ⟨rfl, hle, -⟩; omega
      · simp only [hl, if_false, Except.ok.injEq, Prod.mk.injEq, Option.some.injEq]
        constructor
        · rintro ⟨rfl, hrest⟩; exact ⟨rfl, by omega, hrest⟩
        · rintro ⟨rfl, -, hrest⟩; exact ⟨rfl, hrest⟩

/-- Settles O27: byte for byte, the decoder reads what the encoder wrote. -/
theorem decodeInvertsEncode : Obligations.DecodeInvertsEncode := by
  intro i rest hw
  refine decode_eq_ok_iff.2 ⟨decodeAt_of_beginsWith hw (beginsWith_getD_append _ _), by simp, ?_⟩
  exact List.drop_left' (length_encode i)

/-! ### Encoding what was decoded -/

section Source
variable {b : Nat → Byte} {fc : Byte}

theorem encodeFields_fieldAt (hfc : b 0 = fc) :
    encodeFields fc (fieldAt b 1) (fieldAt b 3) = (List.range 5).map b := by
  simp [encodeFields, fieldAt, be16Bytes, List.range_succ, hfc]

theorem encodeFields_payloadAt (hfc : b 0 = fc) (valueOk : Bool) :
    encodeFields fc (fieldAt b 1) (fieldAt b 3) ++ b 5 :: payloadAt b valueOk (b 5) =
      (List.range (6 + (payloadAt b valueOk (b 5)).length)).map b := by
  rw [encodeFields_fieldAt hfc, length_payloadAt, List.range_add, List.map_append, List.range_succ (n := 5)]
  simp [payloadAt, Function.comp_def]

/-- What is decoded encodes to the bytes it was read from. -/
theorem encode_of_decodeAt {i : Instr} (h : decodeAt b = some i) : encode i = (List.range (instrLength i)).map b := by
  rcases decodeAt_cases b with ⟨f, k⟩ | ⟨f, k⟩ | ⟨f, k⟩ | ⟨f, k⟩ | ⟨f, k⟩ | ⟨f, k⟩ | ⟨f, k⟩ | ⟨f, k⟩ | ⟨-, k⟩ <;>
    cases k.symm.trans h
  · exact encodeFields_fieldAt f
  · exact encodeFields_fieldAt f
  · exact encodeFields_payloadAt f _
  · exact encodeFields_fieldAt f
  · exact encodeFields_fieldAt f
  · exact encodeFields_fieldAt f
  · exact encodeFields_fieldAt f
  · exact encodeFields_payloadAt f _

end Source

theorem map_getD_range (bs : List Byte) {n : Nat} (h : n ≤ bs.length) :
    (List.range n).map (fun k => bs.getD k 0#8) = bs.take n := by
  refine List.ext_getElem (by simp [h]) fun k hk _ => ?_
  have hlt : k < bs.length := Nat.lt_of_lt_of_le (by simpa using hk) h
  simp [hlt]

/-- Settles O28: the encoding is the front of the list, and the rest is behind it. -/
theorem encodeInvertsDecode : Obligations.EncodeInvertsDecode := by
  intro bs i rest h
  obtain ⟨hd, hl, rfl⟩ := decode_eq_ok_iff.1 h
  refine ⟨decodeAt_wellFormed hd, ?_⟩
  rw [encode_of_decodeAt hd, map_getD_range bs hl, List.take_append_drop]

/-! ### Function codes outside the table (R60) -/

/-- The decoder knows exactly the eight codes of R59. -/
theorem decodeAt_eq_none_iff (b : Nat → Byte) :
    decodeAt b = none ↔ b 0 ∉ [0x01#8, 0x02#8, 0x03#8, 0x04#8, 0x05#8, 0x06#8, 0x0F#8, 0x10#8] := by
  rcases decodeAt_cases b with ⟨f, k⟩ | ⟨f, k⟩ | ⟨f, k⟩ | ⟨f, k⟩ | ⟨f, k⟩ | ⟨f, k⟩ | ⟨f, k⟩ | ⟨f, k⟩ | ⟨f, k⟩ <;>
    simp [f, k]

theorem decode_eq_unknownFunction_iff (fc code : Byte) (tail : List Byte) :
    decode (fc :: tail) = .error (.unknownFunction code) ↔
      code = fc ∧ decodeAt (fun k => (fc :: tail).getD k 0#8) = none := by
  rw [decode]
  cases decodeAt (fun k => (fc :: tail).getD k 0#8) with
  | none => simp [eq_comm]
  | some i => dsimp only; split <;> simp

/-- Settles O29: the rejection is the decoder's `none`, and that is byte 0 outside the table. -/
theorem unknownCodesAreRejectedByName : Obligations.UnknownCodesAreRejectedByName := by
  intro fc tail code
  rw [decode_eq_unknownFunction_iff, decodeAt_eq_none_iff]
  rfl

/-- Settles O30: each word is its instruction's encoding, a trailing byte behind it. -/
theorem writtenOutWordsDecode : Obligations.WrittenOutWordsDecode :=
  ⟨decodeInvertsEncode (.rc 0x1234#16 10#16) [] rfl,
    decodeInvertsEncode (.rhr 2#16 256#16) [] rfl,
    decodeInvertsEncode (.wsc 10000#16 0xFF00#16) [] rfl,
    decodeInvertsEncode (.wsr 1#16 0xBEEF#16) [0x99#8] rfl,
    decodeInvertsEncode (.wmr 0#16 1#16 2#8 [0x01#8, 0x02#8]) [] rfl⟩

/-- Settles O38: the two cases of `exec_cases`. -/
theorem execRefusesOnlyIllFormedTerms : Obligations.ExecRefusesOnlyIllFormedTerms := by
  intro i s
  rcases exec_cases i s with ⟨hw, t, ht, -⟩ | ⟨hw, hrefused⟩
  · exact ⟨fun _ => ⟨t, ht⟩, by simp [hw]⟩
  · exact ⟨by simp [hw], fun _ => hrefused⟩

end Sys2Proof
end

section
/-! What the reads answer (family 30_encoding): the bytes of formats RR and RB, and the statements O9 and O11 from
them. -/

namespace Sys2Proof.Machine

/-! ### A reply written from index 0 on (R119) -/

theorem read_writeBytes_zero (m : Memory) (bs : List Byte) {k : Nat} (h : k < bs.length) :
    (m.writeBytes 0 bs).read k = bs.getD k 0#8 := by
  rw [Memory.read_writeBytes, if_pos (by omega), Nat.sub_zero]

theorem deadBytesKept_writeBytes {s t : State} {bs : List Byte} (h : t.resp = s.resp.writeBytes 0 bs) :
    DeadBytesKept s t bs.length := by
  intro a ha
  rw [h, Memory.writeBytes_append _ _ _ _ (by omega)]

/-! ### Format RR (R54) -/

theorem hiByte_eq_upper (v : Word) : hiByte v = upper v := by
  apply BitVec.eq_of_toNat_eq
  have := v.isLt
  simp only [hiByte_toNat, upper, BitVec.toNat_ofNat]
  omega

theorem loByte_eq_lower (v : Word) : loByte v = lower v := by
  apply BitVec.eq_of_toNat_eq
  simp [loByte_toNat, lower]

/-- Word `k` of a list of words laid out big-endian is bytes `2k` and `2k + 1`. -/
theorem getElem?_flatMap_be16Bytes (v : Nat → Word) (l : List Nat) (k : Nat) :
    (l.flatMap (fun j => be16Bytes (v j)))[2 * k]? = l[k]?.map (fun j => hiByte (v j)) ∧
      (l.flatMap (fun j => be16Bytes (v j)))[2 * k + 1]? = l[k]?.map (fun j => loByte (v j)) := by
  induction l generalizing k with
  | nil => simp
  | cons j l ih =>
    cases k with
    | zero => simp [be16Bytes]
    | succ k => exact ih k

/-- Register `k` of a format RR response stands in bytes `2 + 2k` (high) and `3 + 2k` (low). -/
theorem getD_formatRR (fc : Byte) (v : Nat → Word) {count k : Nat} (h : k < count) :
    (formatRR fc v count).getD (2 + 2 * k) 0#8 = upper (v k) ∧
      (formatRR fc v count).getD (3 + 2 * k) 0#8 = lower (v k) := by
  obtain ⟨hhi, hlo⟩ := getElem?_flatMap_be16Bytes v (List.range count) k
  rw [Nat.add_comm 2, Nat.add_comm 3, formatRR]
  simp [hhi, hlo, h, hiByte_eq_upper, loByte_eq_lower]

theorem registerReply_formatRR {s t : State} {fc : Byte} {count : Nat} {v : Nat → Word}
    (hm : t.replyMode = .normal) (hl : t.respLen = 2 + 2 * count)
    (hr : t.resp = s.resp.writeBytes 0 (formatRR fc v count)) : RegisterReply s t fc count v := by
  have hread {k : Nat} (hk : k < 2 + 2 * count) : t.resp.read k = (formatRR fc v count).getD k 0#8 := by
    rw [hr, read_writeBytes_zero _ _ (by simpa using hk)]
  refine ⟨hm, hl, hread (by omega), hread (by omega), fun k hk => ?_, ?_⟩
  · rw [hread (by omega), hread (by omega)]
    exact getD_formatRR fc v hk
  · simpa using deadBytesKept_writeBytes hr

theorem readRegs_answers {s : State} {kind : Kind} {start count : Word} (h1 : 1 ≤ count.toNat)
    (h2 : count.toNat ≤ 125) (hc : 2 + 2 * count.toNat ≤ s.params.respCap)
    (hp : Present s.store (s.addrOf kind start.toNat)) (fc : Byte) :
    RegisterReply s (readRegs fc kind start count s) fc count.toNat
        (fun k => s.x (s.addrOf kind (start.toNat + k))) ∧
      OnlyReplyChanged s (readRegs fc kind start count s) := by
  obtain ⟨i, hi⟩ := find_of_present hp
  rw [readRegs_ok ((regCountOk_iff count).2 ⟨h1, h2⟩) hi hc]
  exact ⟨registerReply_formatRR rfl rfl rfl, rfl⟩

/-- Settles O9: both functions are `ReadRegs`, `RIR` behind the guard of `HREG_ONLY`. -/
theorem registerReadsAnswer : Obligations.RegisterReadsAnswer := by
  intro s start count h1 h2 hc
  refine ⟨fun hp => ⟨_, rfl, readRegs_answers h1 h2 hc hp _⟩, fun hs hp => ⟨_, rfl, ?_⟩⟩
  rw [State.dispatched_off hs]
  exact readRegs_answers h1 h2 hc hp _

/-! ### Format RB (R55, R100) -/

/-- A byte built by setting, in ascending order, each bit below `n` whose condition holds. -/
theorem getLsbD_foldl_twoPow (c : Nat → Bool) (n i : Nat) (hi : i < 8) :
    ((List.range n).foldl (fun p i => if c i then p ||| BitVec.twoPow 8 i else p) 0#8).getLsbD i =
      (decide (i < n) && c i) := by
  induction n with
  | zero => simp
  | succ n ih =>
    have hset (p : Byte) : (if c n then p ||| BitVec.twoPow 8 n else p).getLsbD i =
        (p.getLsbD i || (decide (n = i) && c n)) := by
      cases c n with
      | false => simp
      | true => simp [BitVec.getElem_or, BitVec.getElem_twoPow, hi, eq_comm]
    rw [List.range_succ, List.foldl_append, List.foldl_cons, List.foldl_nil, hset, ih]
    by_cases hn : n = i
    · subst hn; simp
    · have hlt : i < n + 1 ↔ i < n := by omega
      simp [hn, hlt]

/-- Item `8j + i` is bit `i` of packed byte `j`, and padding bits are 0 (R100). -/
theorem getLsbD_packByte (bit : Nat → Bool) (count j : Nat) {i : Nat} (hi : i < 8) :
    (packByte bit count j).getLsbD i = (decide (8 * j + i < count) && bit (8 * j + i)) := by
  rw [packByte, getLsbD_foldl_twoPow (fun i => decide (8 * j + i < count) && bit (8 * j + i)) 8 i hi]
  simp [hi]

theorem getD_formatRB (fc : Byte) (bit : Nat → Bool) {count j : Nat} (h : j < ceilDiv8 count) :
    (formatRB fc bit count).getD (2 + j) 0#8 = packByte bit count j := by
  rw [Nat.add_comm, formatRB]
  simp [h]

theorem bitReply_formatRB {s t : State} {fc : Byte} {count : Nat} {bit : Nat → Bool}
    (hm : t.replyMode = .normal) (hl : t.respLen = 2 + ceilDiv8 count)
    (hr : t.resp = s.resp.writeBytes 0 (formatRB fc bit count)) : BitReply s t fc count bit := by
  have hread {k : Nat} (hk : k < 2 + ceilDiv8 count) : t.resp.read k = (formatRB fc bit count).getD k 0#8 := by
    rw [hr, read_writeBytes_zero _ _ (by simpa using hk)]
  refine ⟨hm, hl, hread (by omega), hread (by omega), fun j i hj hi => ?_, ?_⟩
  · rw [hread (Nat.add_lt_add_left hj 2), getD_formatRB fc bit hj, getLsbD_packByte bit count j hi]
  · rw [← ceilDiv8, ← length_formatRB fc bit count]
    exact deadBytesKept_writeBytes hr

theorem readBits_answers {s : State} {kind : Kind} {start count : Word} (h1 : 1 ≤ count.toNat)
    (h2 : count.toNat ≤ 2000) (hc : 2 + ceilDiv8 count.toNat ≤ s.params.respCap)
    (hp : Present s.store (s.addrOf kind start.toNat)) (fc : Byte) :
    BitReply s (readBits fc kind start count s) fc count.toNat
        (fun k => decide (s.x (s.addrOf kind (start.toNat + k)) = 0xFF00#16)) ∧
      OnlyReplyChanged s (readBits fc kind start count s) := by
  obtain ⟨i, hi⟩ := find_of_present hp
  rw [readBits_ok ((bitCountOk_iff count).2 ⟨h1, h2⟩) hi hc]
  exact ⟨bitReply_formatRB rfl rfl rfl, rfl⟩

/-- Settles O11: both functions are `ReadBits` behind the guard of `HREG_ONLY`. -/
theorem bitReadsAnswer : Obligations.BitReadsAnswer := by
  intro s start count hs h1 h2 hc
  refine ⟨fun hp => ⟨_, rfl, ?_⟩, fun hp => ⟨_, rfl, ?_⟩⟩ <;> rw [State.dispatched_off hs]
  · exact readBits_answers h1 h2 hc hp _
  · exact readBits_answers h1 h2 hc hp _

end Sys2Proof.Machine
end

section
/-! What the handlers do not read (family 30_encoding): the request they answer and, behind the guard of R87, the
strap; and the statements O19 and O32 from that. -/

namespace Sys2Proof.Machine

/-! ### Another request and another strap -/

/-- The same state with another request in the buffer and another value of `HREG_ONLY`. -/
def State.withRequest (s : State) (req : Memory) (reqLen : Nat) (strap : Bool) : State :=
  { s with req := req, reqLen := reqLen, hregOnly := strap }

section WithRequest
variable (s : State) (req : Memory) (reqLen : Nat) (strap : Bool)

@[simp] theorem State.withRequest_store : (s.withRequest req reqLen strap).store = s.store := rfl
@[simp] theorem State.withRequest_params : (s.withRequest req reqLen strap).params = s.params := rfl
@[simp] theorem State.withRequest_hookScript : (s.withRequest req reqLen strap).hookScript = s.hookScript := rfl
@[simp] theorem State.withRequest_hregOnly : (s.withRequest req reqLen strap).hregOnly = strap := rfl

@[simp] theorem State.withRequest_addrOf (kind : Kind) (off : Nat) :
    (s.withRequest req reqLen strap).addrOf kind off = s.addrOf kind off := rfl
@[simp] theorem State.withRequest_kindExists (kind : Kind) (off : Nat) :
    (s.withRequest req reqLen strap).kindExists kind off = s.kindExists kind off := rfl
@[simp] theorem State.withRequest_rangeExists (kind : Kind) (start count : Nat) :
    (s.withRequest req reqLen strap).rangeExists kind start count = s.rangeExists kind start count := rfl

/-! Each operation gives the same from either state, and leaves the request and the strap there. -/

theorem callHook_withRequest (c : HookCall) :
    (s.withRequest req reqLen strap).callHook c =
      ((s.callHook c).1, (s.callHook c).2.withRequest req reqLen strap) := by
  simp only [State.callHook, State.withRequest_hookScript]
  rcases s.hookScript with _ | ⟨_ | _, rest⟩ <;> rfl

theorem storeWrite_withRequest (a : Addr) (v : Word) (src : Byte) :
    (s.withRequest req reqLen strap).storeWrite a v src =
      ((s.storeWrite a v src).1, (s.storeWrite a v src).2.withRequest req reqLen strap) := by
  simp only [State.storeWrite, State.withRequest_store, callHook_withRequest]
  cases find s.store a with
  | none => rfl
  | some i =>
    cases lookup s.store a with
    | none => rfl
    | some e =>
      dsimp only
      cases e.hookEn with
      | false => rfl
      | true => rcases s.callHook ⟨e.hookId, a, v, src⟩ with ⟨_ | w, t⟩ <;> rfl

theorem writeItems_withRequest (kind : Kind) (start : Nat) (src : Byte) (vs : List Word) (k : Nat) (s : State) :
    State.writeItems kind start src vs k (s.withRequest req reqLen strap) =
      ((State.writeItems kind start src vs k s).1,
        (State.writeItems kind start src vs k s).2.withRequest req reqLen strap) := by
  induction vs generalizing k s with
  | nil => rfl
  | cons v vs ih =>
    simp only [State.writeItems, State.kindWrite_eq, State.withRequest_addrOf, storeWrite_withRequest]
    rcases s.storeWrite (s.addrOf kind (start + k)) v src with ⟨_ | _ | _, t⟩
    · exact ih (k + 1) t
    · rfl
    · rfl

theorem alloc_withRequest (fc : Byte) (length : Nat) {rest : State → State}
    (h : ∀ t, rest (t.withRequest req reqLen strap) = (rest t).withRequest req reqLen strap) :
    (s.withRequest req reqLen strap).alloc fc length rest = (s.alloc fc length rest).withRequest req reqLen strap := by
  unfold State.alloc
  rw [State.withRequest_params]
  split
  · rfl
  · exact h { s with respLen := length }

theorem readRegs_withRequest (fc : Byte) (kind : Kind) (start count : Word) :
    readRegs fc kind start count (s.withRequest req reqLen strap) =
      (readRegs fc kind start count s).withRequest req reqLen strap := by
  unfold readRegs
  rw [State.withRequest_kindExists]
  split
  · rfl
  · split
    · rfl
    · exact alloc_withRequest s req reqLen strap _ _ fun _ => rfl

theorem readBits_withRequest (fc : Byte) (kind : Kind) (start count : Word) :
    readBits fc kind start count (s.withRequest req reqLen strap) =
      (readBits fc kind start count s).withRequest req reqLen strap := by
  unfold readBits
  rw [State.withRequest_kindExists]
  split
  · rfl
  · split
    · rfl
    · exact alloc_withRequest s req reqLen strap _ _ fun _ => rfl

theorem writeSingle_withRequest (fc : Byte) (kind : Kind) (off value : Word) :
    writeSingle fc kind off value (s.withRequest req reqLen strap) =
      (writeSingle fc kind off value s).withRequest req reqLen strap := by
  have hother := storeWrite_withRequest s req reqLen strap (s.addrOf kind off.toNat) value fc
  rcases hw : s.storeWrite (s.addrOf kind off.toNat) value fc with ⟨_ | _ | _, t⟩ <;> rw [hw] at hother
  · rw [writeSingle_ok hw, writeSingle_ok hother]
    change (if valueAt t.store (s.addrOf kind off.toNat) = value then _ else _) = _
    split <;> rfl
  · rw [writeSingle_absent hw, writeSingle_absent hother]
    rfl
  · rw [writeSingle_waiting hw, writeSingle_waiting hother]

theorem writeMultiple_withRequest (fc : Byte) (kind : Kind) (start count : Word) (valueOk : Bool)
    (values : List Word) :
    writeMultiple fc kind start count valueOk values (s.withRequest req reqLen strap) =
      (writeMultiple fc kind start count valueOk values s).withRequest req reqLen strap := by
  unfold writeMultiple
  rw [State.withRequest_rangeExists]
  split
  · rfl
  · split
    · rfl
    · refine alloc_withRequest s req reqLen strap _ _ fun t => ?_
      rw [writeItems_withRequest]
      rcases State.writeItems kind start.toNat fc values 0 t with ⟨_ | _ | _, u⟩ <;> rfl

/-- The guard reads the strap, so only the request may differ (R87). -/
theorem dispatched_withRequest (fc : Byte) {handler : State → State}
    (h : handler (s.withRequest req reqLen s.hregOnly) = (handler s).withRequest req reqLen s.hregOnly) :
    (s.withRequest req reqLen s.hregOnly).dispatched fc handler =
      (s.dispatched fc handler).withRequest req reqLen s.hregOnly := by
  unfold State.dispatched
  rw [State.withRequest_hregOnly]
  split
  · rfl
  · exact h

end WithRequest

/-- An instruction does the same whatever the request, and for the three function codes without the guard (R89)
whatever the strap. -/
theorem exec_withRequest {i : Instr} {s t : State} {strap : Bool} (h : exec i s = .next t)
    (hstrap : strap = s.hregOnly ∨ instrFc i ∈ [Config.fcReadHregs, Config.fcWriteHreg, Config.fcWriteHregs])
    (req : Memory) (reqLen : Nat) :
    exec i (s.withRequest req reqLen strap) = .next (t.withRequest req reqLen strap) := by
  have guarded (hi : instrFc i ∉ [Config.fcReadHregs, Config.fcWriteHreg, Config.fcWriteHregs]) :
      strap = s.hregOnly := hstrap.resolve_right hi
  cases i with
  | rhr _ _ => cases h; exact congrArg _ (readRegs_withRequest ..)
  | wsr _ _ => cases h; exact congrArg _ (writeSingle_withRequest ..)
  | wmr _ _ _ _ =>
    rw [exec, execWmr] at h ⊢
    split at h <;> cases h
    rename_i hw
    rw [if_pos hw, writeMultiple_withRequest]
  | rc _ _ | rdi _ _ =>
    cases h; cases guarded (by rw [instrFc]; decide)
    exact congrArg _ (dispatched_withRequest _ _ _ _ (readBits_withRequest ..))
  | rir _ _ =>
    cases h; cases guarded (by rw [instrFc]; decide)
    exact congrArg _ (dispatched_withRequest _ _ _ _ (readRegs_withRequest ..))
  | wsc _ _ =>
    cases h; cases guarded (by rw [instrFc]; decide)
    refine congrArg _ (dispatched_withRequest _ _ _ _ ?_)
    split
    · rfl
    · exact writeSingle_withRequest ..
  | wmc _ _ _ _ =>
    cases guarded (by rw [instrFc]; decide)
    rw [exec, execWmc] at h ⊢
    split at h <;> cases h
    rename_i hw
    rw [if_pos hw, dispatched_withRequest _ _ _ _ (writeMultiple_withRequest ..)]

/-! ### The strap (R62, R89) -/

theorem raise_exceptionReply (s : State) (exc : Exc) (fc : Byte) :
    ExceptionReply s (s.raise exc fc) fc (excCode exc) := by
  refine ⟨rfl, rfl, ?_, ?_, deadBytesKept_writeBytes (State.raise_resp s exc fc)⟩
  · simp [Memory.read_writeBytes, formatEX]
  · simp [Memory.read_writeBytes, formatEX]

/-- Behind the guard, with the strap set, every function code is unknown (R62). -/
theorem dispatched_raises {s : State} (h : s.hregOnly = true) (fc : Byte) (handler : State → State) :
    ∃ t, (.next (s.dispatched fc handler) : Host.Outcome State Fault Refusal) = .next t ∧
      ExceptionReply s t fc 0x01#8 ∧ OnlyReplyChanged s t := by
  rw [State.dispatched_on h]
  exact ⟨_, rfl, raise_exceptionReply s .illegalFunction fc, rfl⟩

theorem HandlerFrame.withRequest_eq {s t : State} (h : HandlerFrame s t) (strap : Bool) :
    t.withRequest s.req s.reqLen strap = { t with hregOnly := strap } := by
  rw [← h.req, ← h.reqLen]
  rfl

/-- Settles O19: five handlers stand behind the guard, and the other three do not read the strap. -/
theorem hregOnlyRemovesFiveFunctions : Obligations.HregOnlyRemovesFiveFunctions := by
  refine ⟨fun s a b bc payload hs => ⟨?_, ?_, ?_, ?_, fun hw => ?_⟩, fun s a b bc payload strap hwmr i hi => ?_⟩
  · exact dispatched_raises hs _ _
  · exact dispatched_raises hs _ _
  · exact dispatched_raises hs _ _
  · exact dispatched_raises hs _ _
  · rw [exec, execWmc, if_pos hw]
    exact dispatched_raises hs _ _
  · have hthree : i.wellFormed = true ∧
        instrFc i ∈ [Config.fcReadHregs, Config.fcWriteHreg, Config.fcWriteHregs] := by
      simp only [List.mem_cons, List.not_mem_nil, or_false] at hi
      rcases hi with rfl | rfl | rfl
      · exact ⟨rfl, by simp [instrFc]⟩
      · exact ⟨rfl, by simp [instrFc]⟩
      · exact ⟨hwmr, by simp [instrFc]⟩
    rcases exec_cases i s with ⟨-, t, ht, hf⟩ | ⟨hill, -⟩
    · refine ⟨t, ht, ?_⟩
      rw [← hf.withRequest_eq]
      exact exec_withRequest ht (.inr hthree.2) s.req s.reqLen
    · rw [hthree.1] at hill
      cases hill

/-! ### Trailing bytes (R64) -/

/-- Below `req_len` the engine reads the transport's bytes (R17). -/
theorem reqByte_beginsWith (s : State) (bs tail : List Byte) (rest : List Input) :
    BeginsWith (s.acceptPdu (bs ++ tail) rest).reqByte bs := by
  intro k v hk
  have hlt : k < bs.length := (List.getElem?_eq_some_iff.1 hk).1
  rw [reqByte_acceptPdu, if_pos (by simp; omega)]
  exact beginsWith_getD_append bs tail k v hk

/-- A request that begins with the encoding of a well-formed instruction is dispatched to its handler (R87). -/
theorem dispatch_encode {i : Instr} (hw : i.wellFormed = true) (s : State) (tail : List Byte) (rest : List Input) :
    dispatch (s.acceptPdu (encode i ++ tail) rest) = exec i (s.acceptPdu (encode i ++ tail) rest) := by
  rw [dispatch, decodeAt_of_beginsWith hw (reqByte_beginsWith s _ tail rest)]

theorem acceptPdu_withRequest (s : State) (bytes bytes' : List Byte) (rest : List Input) :
    s.acceptPdu bytes' rest =
      (s.acceptPdu bytes rest).withRequest (Memory.writeBytes [] 0 bytes') bytes'.length s.hregOnly := rfl

theorem endTransaction_withRequest (s : State) (req : Memory) (reqLen : Nat) (strap : Bool) :
    (s.withRequest req reqLen strap).endTransaction = s.endTransaction.withRequest req reqLen strap := by
  by_cases h : s.hookWait = none
  · rw [State.endTransaction_idle h]; exact State.endTransaction_idle h
  · rw [State.endTransaction_waiting h]; exact State.endTransaction_waiting h

/-- The transaction of such a request: the handler, inside its frame, and the end. -/
theorem step_encode {i : Instr} (hw : i.wellFormed = true) {s : State} (hr : s.ready = true) {tail : List Byte}
    (hl : (encode i ++ tail).length ≤ s.params.reqCap) (rest : List Input) :
    ∃ u, exec i (s.acceptPdu (encode i ++ tail) rest) = .next u ∧
      HandlerFrame (s.acceptPdu (encode i ++ tail) rest) u ∧
      step { s with inputs := .pdu (encode i ++ tail) :: rest } = .next u.endTransaction := by
  obtain ⟨u, hu, hf, hstep⟩ := step_pdu (s := { s with inputs := .pdu (encode i ++ tail) :: rest }) hr rfl hl
  exact ⟨u, (dispatch_encode hw s tail rest).symm.trans hu, hf, hstep⟩

theorem HandlerFrame.endTransaction_reply_echo {s u : State} {bytes : List Byte} {rest : List Input}
    (h : HandlerFrame (s.acceptPdu bytes rest) u) (hm : u.replyMode = .echo) :
    u.endTransaction.reply = bytes := by
  rw [State.reply_echo (by rw [State.endTransaction_replyMode, hm]), State.endTransaction_reqBytes, h.reqBytes, State.acceptPdu_reqBytes]

theorem State.reply_withRequest_normal {s : State} (h : s.replyMode = .normal) (req : Memory) (reqLen : Nat)
    (strap : Bool) : (s.withRequest req reqLen strap).reply = s.reply := by
  have hother : (s.withRequest req reqLen strap).replyMode = .normal := h
  rw [State.reply, State.reply, h, hother]
  rfl

/-- Settles O32: both requests run the same handler, which does not read them. -/
theorem trailingBytesChangeNothing : Obligations.TrailingBytesChangeNothing := by
  intro s i x y rest hr hw hx hy
  obtain ⟨t, ht, hf, hstep⟩ := step_encode hw hr hx rest
  obtain ⟨u, hu, hg, hstep'⟩ := step_encode hw hr hy rest
  refine ⟨_, _, hstep, hstep', ?_⟩
  have hother : exec i (s.acceptPdu (encode i ++ y) rest) = .next (t.withRequest _ _ s.hregOnly) :=
    exec_withRequest ht (.inl rfl) (Memory.writeBytes [] 0 (encode i ++ y)) (encode i ++ y).length
  obtain rfl : u = t.withRequest _ _ s.hregOnly := Host.Outcome.next.inj (hu.symm.trans hother)
  refine ⟨?_, fun _ hm => ?_, fun _ hm => ?_⟩
  · have hstrap : s.hregOnly = t.endTransaction.hregOnly := by simp [hf.hregOnly]
    rw [endTransaction_withRequest, hstrap]
    rfl
  · rw [endTransaction_withRequest]
    exact State.reply_withRequest_normal hm _ _ _
  · rw [State.endTransaction_replyMode] at hm
    exact ⟨hf.endTransaction_reply_echo hm, hg.endTransaction_reply_echo hm⟩

end Sys2Proof.Machine
end

section
/-! The Register Store and the configuration port (family 40_store_mapper): what a lookup finds and a read returns, the
outcomes of a write for the first match, and the statements O3 to O6, O22 to O24 and O26 from them. -/

namespace Sys2Proof.Machine

/-! ### Lookup (R71, R72) -/

section FirstMatch
variable {es : List Entry} {a : Addr} {i : Nat} {e : Entry}

/-- `find` answers something, and of two entries with the address that both are first, neither is before the other. -/
theorem FirstAt.find_eq (h : FirstAt es a i e) : find es a = some i := by
  obtain ⟨hi, ha, hfirst⟩ := h
  obtain ⟨j, hj⟩ := find_of_present ⟨e, List.mem_of_getElem? hi, ha⟩
  obtain ⟨d, hd, hda, hjfirst⟩ := find_some hj
  have hji : ¬ j < i := fun hlt => hfirst j d hlt hd hda
  have hij : ¬ i < j := fun hlt => hjfirst i e hlt hi ha
  rw [hj, show j = i by omega]

theorem FirstAt.lookup_eq (h : FirstAt es a i e) : lookup es a = some e := by
  rw [lookup_of_find h.find_eq, h.1]

theorem FirstAt.valueAt_eq (h : FirstAt es a i e) : valueAt es a = e.value := valueAt_of_find h.find_eq h.1

theorem find_eq_some_iff : find es a = some i ↔ ∃ e, FirstAt es a i e :=
  ⟨find_some, fun ⟨_, h⟩ => h.find_eq⟩

theorem find_eq_none_iff : find es a = none ↔ ¬ Present es a := by
  rw [find_none]
  simp [Present]

theorem valueAt_of_absent (h : ¬ Present es a) : valueAt es a = 0x0000#16 := valueAt_none (find_eq_none_iff.2 h)

/-- `setValueAt` is the change of one value the statements speak of (R73). -/
theorem oneValueChanged_setValueAt (es : List Entry) (i : Nat) (v : Word) :
    OneValueChanged es (setValueAt es i v) i v :=
  ⟨length_setValueAt es i v, fun j e hj => by simp [getElem?_setValueAt, hj]⟩

end FirstMatch

/-- Settles O3: the index `find` answers is the one of the first match, and it answers none over no match. -/
theorem findReturnsFirstMatch : Obligations.FindReturnsFirstMatch :=
  fun _ _ => ⟨fun _ => find_eq_some_iff, find_eq_none_iff⟩

/-- Settles O4: a register read is the value the store holds at the address. -/
theorem registerReadIsFirstMatchOrZero : Obligations.RegisterReadIsFirstMatchOrZero :=
  fun _ _ => ⟨fun _ _ => FirstAt.valueAt_eq, valueAt_of_absent⟩

/-! ### The outcomes of a write (R73, R74, R149) -/

/-- The two ways a hook call is answered, by the script or freely, are those of the environment. -/
theorem HookAnswered.callAnswered {s t : State} {c : HookCall} {w : Word} (h : HookAnswered s t c w) :
    CallAnswered s t c w := by
  obtain ⟨hanswer, ht⟩ := h
  refine ⟨by rw [ht], by rw [ht], ?_⟩
  rcases hanswer with ⟨hscript, hdraws⟩ | ⟨hended, hended', hdraws, hw⟩
  · exact .inl ⟨t.hookScript, hscript, rfl, hdraws⟩
  · exact .inr ⟨hended, hw, hended', hdraws⟩

section StoreWrite
variable {s : State} {a : Addr} {i : Nat} {e : Entry}

theorem storeWrite_absent (h : ¬ Present s.store a) (v : Word) (src : Byte) :
    s.storeWrite a v src = (.absent, s) := by
  simp [State.storeWrite, find_eq_none_iff.2 h]

theorem storeWrite_plain (h : FirstAt s.store a i e) (hh : e.hookEn = false) (v : Word) (src : Byte) :
    s.storeWrite a v src = (.ok, { s with store := setValueAt s.store i v }) := by
  simp [State.storeWrite, h.find_eq, h.lookup_eq, hh]

theorem storeWrite_answered (h : FirstAt s.store a i e) (hh : e.hookEn = true)
    (hn : ∀ rest, s.hookScript ≠ .never :: rest) (v : Word) (src : Byte) :
    ∃ t w, s.storeWrite a v src = (.ok, t) ∧ t.store = setValueAt s.store i w ∧
      CallAnswered s t ⟨e.hookId, a, v, src⟩ w ∧
      t = { s with
        store := t.store, hookTrace := t.hookTrace, hookScript := t.hookScript, hookDraws := t.hookDraws } := by
  rcases callHook_cases s ⟨e.hookId, a, v, src⟩ with ⟨w, u, hcall, hu, -⟩ | ⟨rest, hnever, -⟩
  · have hstore : u.store = s.store := by rw [hu.2]
    refine ⟨{ u with store := setValueAt s.store i w }, w, ?_, rfl, hu.callAnswered, ?_⟩
    · simp [State.storeWrite, h.find_eq, h.lookup_eq, hh, hcall, hstore]
    · rw [hu.2]
  · exact absurd hnever (hn rest)

theorem storeWrite_waiting (h : FirstAt s.store a i e) (hh : e.hookEn = true) {rest : List HookReply}
    (hnever : s.hookScript = .never :: rest) (v : Word) (src : Byte) :
    s.storeWrite a v src = (.waiting, { s with hookScript := rest, hookWait := some ⟨e.hookId, a, v, src⟩ }) := by
  simp [State.storeWrite, h.find_eq, h.lookup_eq, hh, State.callHook, hnever]

/-- Whatever a write does, it does at its own address (R78). -/
theorem storeWrite_x_of_ne {b : Addr} (h : b ≠ a) (v : Word) (src : Byte) :
    (s.storeWrite a v src).2.x b = s.x b := by
  have other {i : Nat} (hf : find s.store a = some i) (w : Word) :
      valueAt (setValueAt s.store i w) b = valueAt s.store b := by
    rw [valueAt_setValueAt hf, if_neg h]
  rcases storeWrite_cases s a v src with ⟨-, hw⟩ | ⟨i, e, hf, -, ⟨-, hw⟩ | ⟨-, w, t, -, -, hw⟩ | ⟨-, rest, -, hw⟩⟩ <;>
    rw [hw]
  · exact other hf v
  · exact other hf w
  · rfl

end StoreWrite

/-- After a change of the first match's value the address reads the new value (R78). -/
theorem FirstAt.valueAt_set {es : List Entry} {a : Addr} {i : Nat} {e : Entry} (h : FirstAt es a i e)
    (v : Word) : valueAt (setValueAt es i v) a = v := by
  rw [valueAt_setValueAt h.find_eq, if_pos rfl]

/-- Settles O5: one rule per outcome of the write path. -/
theorem storeWriteGoesThroughTheHook : Obligations.StoreWriteGoesThroughTheHook := by
  refine fun s a v src => ⟨fun h => storeWrite_absent h v src, fun i e h => ⟨fun hh => ?_, fun hh hn => ?_,
    fun hh rest hnever => storeWrite_waiting h hh hnever v src⟩⟩
  · exact ⟨_, storeWrite_plain h hh v src, oneValueChanged_setValueAt s.store i v, rfl⟩
  · obtain ⟨t, w, hw, hstore, hcall, ht⟩ := storeWrite_answered h hh hn v src
    exact ⟨t, w, hw, hstore ▸ oneValueChanged_setValueAt s.store i w, hcall, ht⟩

/-- Settles O6: the rules of the write path, read back. A write through a hook that reports `ok` was answered. -/
theorem readAfterWriteLaws : Obligations.ReadAfterWriteLaws := by
  refine fun s a v src => ⟨fun i e h hh => ?_, fun i e t h hh hw => ?_, fun t b ht hb => ?_, fun h => ?_⟩
  · rw [storeWrite_plain h hh]
    exact ⟨rfl, h.valueAt_set v⟩
  · have hn (rest : List HookReply) : s.hookScript ≠ .never :: rest := by
      intro hnever
      rw [storeWrite_waiting h hh hnever] at hw
      cases hw
    obtain ⟨u, w, hu, hstore, ⟨htrace, -⟩, -⟩ := storeWrite_answered h hh hn v src
    obtain rfl : u = t := congrArg Prod.snd (hu.symm.trans hw)
    refine ⟨w, htrace, ?_⟩
    rw [State.x_eq, hstore, h.valueAt_set]
  · rw [← ht, storeWrite_x_of_ne hb]
  · exact ⟨find_eq_none_iff.2 h, valueAt_of_absent h, by rw [storeWrite_absent h]⟩

/-! ### The operations of the configuration port (R79 to R84) -/

section CfgWrite
variable {s t : State} {kind : Kind} {off value : Word}

theorem cfgWrite_ok (h : s.storeWrite (s.addrOf kind off.toNat) value s.params.srcLocal = (.ok, t)) :
    cfgWrite kind off value s = { t with cfgOut := some .ok } := by
  simp [cfgWrite, h]

theorem cfgWrite_absent (h : ¬ Present s.store (s.addrOf kind off.toNat)) :
    cfgWrite kind off value s = { s with cfgOut := some .absent } := by
  simp [cfgWrite, storeWrite_absent h]

end CfgWrite

/-- Settles O24: `cfg_write` is the write path of the engine that has taken the operation, and its report. -/
theorem cfgWriteUsesTheWritePath : Obligations.CfgWriteUsesTheWritePath := by
  intro s kind off value rest hr hi
  rw [step_cfg hr hi, cfgExec]
  refine ⟨fun h => congrArg _ (cfgWrite_absent h), fun i e h => ⟨fun hh => ?_, fun hh hn => ?_⟩⟩
  · have hw := storeWrite_plain (s := { s with inputs := rest }) h hh value s.params.srcLocal
    exact ⟨_, congrArg _ (cfgWrite_ok hw), oneValueChanged_setValueAt s.store i value, rfl⟩
  · obtain ⟨t, w, hw, hstore, hcall, ht⟩ :=
      storeWrite_answered (s := { s with inputs := rest }) h hh hn value s.params.srcLocal
    refine ⟨_, w, congrArg _ (cfgWrite_ok hw), ?_, hcall, ?_⟩
    · rw [hstore]
      exact oneValueChanged_setValueAt s.store i w
    · rw [ht]

/-- Settles O22: the two cases of registration. -/
theorem cfgAddAppendsOneEntry : Obligations.CfgAddAppendsOneEntry := by
  intro s kind off init hookEn hookId rest hr hi
  rw [step_cfg hr hi, cfgExec]
  rcases cfgAdd_cases kind off init hookEn hookId { s with inputs := rest } with ⟨hfull, h⟩ | ⟨hroom, h⟩ <;> rw [h]
  · exact ⟨fun hroom => absurd hfull hroom, fun _ => rfl⟩
  · exact ⟨fun _ => rfl, fun hfull => absurd hfull hroom⟩

/-- Settles O23: `cfg_read` answers the register read, `cfg_enum` the entry at the index. -/
theorem cfgReadAndEnumOnlyRead : Obligations.CfgReadAndEnumOnlyRead := by
  intro s rest hr
  refine ⟨fun kind off hi => ?_, fun i hi => ?_⟩ <;> rw [step_cfg hr hi, cfgExec]
  · exact ⟨_, rfl, fun _ _ => FirstAt.valueAt_eq, valueAt_of_absent⟩
  · refine ⟨fun e he => ?_, fun hlen => ?_⟩
    · simp [cfgEnum, he]
    · simp [cfgEnum, List.getElem?_eq_none hlen]

/-- Under an environment that answers, an operation leaves no call waiting that did not wait before (R79, R149). -/
theorem cfgExec_hookWait {s : State} (h : Answering s) (op : CfgOp) : (cfgExec op s).hookWait = s.hookWait := by
  cases op with
  | add kind off init hookEn hookId =>
    rw [cfgExec]
    rcases cfgAdd_cases kind off init hookEn hookId s with ⟨-, hadd⟩ | ⟨-, hadd⟩ <;> rw [hadd]
  | write kind off value =>
    rw [cfgExec]
    rcases cfgWrite_cases kind off value s with
      ⟨-, hw⟩ | ⟨i, e, -, -, ⟨-, hw⟩ | ⟨-, w, t, ht, -, hw⟩ | ⟨-, rest, hnever, -⟩⟩
    · rw [hw]
    · rw [hw]
    · rw [hw, ht.2]
    · exact absurd rfl (h .never (by simp [hnever]))
  | read kind off => rfl
  | enum i => rfl

/-- An engine that is not ready takes no configuration operation (R79; log 7). -/
theorem step_cfg_not_ready {s : State} {op : CfgOp} {rest : List Input} (hr : s.ready = false)
    (hi : s.inputs = .cfg op :: rest) : step s = .next s := by
  rw [step, hi]
  simp [takeInput, hr]

/-- Settles O26: the frame of a configuration operation leaves the phase alone, and an answered one leaves no call
waiting. -/
theorem cfgOpsLeaveTheReplyAlone : Obligations.CfgOpsLeaveTheReplyAlone := by
  refine fun s op rest hi => ⟨fun hr => step_cfg_not_ready hr hi, fun hr => ?_⟩
  have hframe := cfgExec_frame op { s with inputs := rest }
  obtain ⟨hphase, hwait⟩ := (ready_iff s).1 hr
  refine ⟨_, step_cfg hr hi, fun hanswering => ?_, hframe.rest⟩
  have hkept := cfgExec_hookWait (s := { s with inputs := rest }) hanswering op
  exact (ready_iff _).2 ⟨hframe.phase.trans hphase, hkept.trans hwait⟩

end Sys2Proof.Machine
end

section
/-! Dispatch (family 41_dispatch): which requests the dispatcher answers itself, how a transaction ends, and the
statements O8, O31, O35 and O37 from these. -/

namespace Sys2Proof.Machine

/-! ### Unknown function codes (R62, R88, R89) -/

/-- The dispatcher has no handler for `fc`: it is outside the table of R59, or one of the five codes the strap takes
out of it (R62). -/
def NotDispatched (s : State) (fc : Byte) : Prop :=
  fc ∉ [0x01#8, 0x02#8, 0x03#8, 0x04#8, 0x05#8, 0x06#8, 0x0F#8, 0x10#8] ∨
    (s.hregOnly = true ∧ fc ∉ [0x03#8, 0x06#8, 0x10#8])

/-- With the strap set, every instruction but the three holding register ones raises `IllegalFunction` (R89). -/
theorem exec_removed {i : Instr} {s : State} (hs : s.hregOnly = true) (hw : i.wellFormed = true)
    (hfc : instrFc i ∉ [0x03#8, 0x06#8, 0x10#8]) : exec i s = .next (s.raise .illegalFunction (instrFc i)) := by
  cases i with
  | rc _ _ | rdi _ _ | rir _ _ | wsc _ _ => exact congrArg Host.Outcome.next (State.dispatched_on hs _ _)
  | wmc start count bc payload =>
    rw [exec, execWmc, if_pos hw, State.dispatched_on hs]
    rfl
  | rhr _ _ | wsr _ _ | wmr _ _ _ _ =>
    simp [instrFc, Config.fcReadHregs, Config.fcWriteHreg, Config.fcWriteHregs] at hfc

/-- A function code without a handler raises `IllegalFunction`, whatever stands behind it (R88). -/
theorem dispatch_notDispatched {s : State} (h : NotDispatched s (s.reqByte 0)) :
    dispatch s = .next (s.raise .illegalFunction (s.reqByte 0)) := by
  rw [dispatch]
  cases hd : decodeAt s.reqByte with
  | none => rfl
  | some i =>
    rcases h with hunknown | ⟨hs, hremoved⟩
    · rw [(decodeAt_eq_none_iff _).2 hunknown] at hd
      cases hd
    · rw [← decodeAt_fc hd] at hremoved ⊢
      exact exec_removed hs (decodeAt_wellFormed hd) hremoved

/-- The whole transaction of such a request (R85, R88, R92). -/
theorem step_notDispatched {s : State} {fc : Byte} {tail : List Byte} {rest : List Input} (hr : s.ready = true)
    (hi : s.inputs = .pdu (fc :: tail) :: rest) (hl : tail.length < s.params.reqCap) (h : NotDispatched s fc) :
    step s = .next { (s.acceptPdu (fc :: tail) rest).raise .illegalFunction fc with phase := .idle } := by
  obtain ⟨u, hu, -, hstep⟩ := step_pdu hr hi hl
  have hcode : (s.acceptPdu (fc :: tail) rest).reqByte 0 = fc := by simp [reqByte_acceptPdu]
  have hraise := dispatch_notDispatched (s := s.acceptPdu (fc :: tail) rest) (hcode.symm ▸ h)
  rw [hcode] at hraise
  cases hraise.symm.trans hu
  rw [hstep, State.endTransaction_idle]
  exact ((ready_iff s).1 hr).2

/-- What the transport sends for an exception is format EX (R56, R123). -/
theorem ExceptionReply.reply_eq {s t : State} {fc code : Byte} (h : ExceptionReply s t fc code) :
    t.reply = [fc ||| 0x80#8, code] := by
  obtain ⟨hmode, hlen, h0, h1, -⟩ := h
  rw [State.reply, hmode]
  simp [State.respBytes, hlen, List.range_succ, h0, h1]

/-- The OR of R69 leaves a code with bit 7 set unchanged. -/
theorem or_0x80_of_le {fc : Byte} (h : 0x80#8 ≤ fc) : fc ||| 0x80#8 = fc := by
  revert fc
  decide

/-- Settles O8: the request is accepted, the dispatcher raises `IllegalFunction` for its first byte, and the
transaction ends where it began, in `Idle`. -/
theorem unknownFunctionIsAnswered : Obligations.UnknownFunctionIsAnswered := by
  intro s fc tail rest hr hi hl hnone
  have hreply := (raise_exceptionReply (s.acceptPdu (fc :: tail) rest) .illegalFunction fc).reply_eq
  refine ⟨_, step_notDispatched hr hi hl hnone, hreply, rfl, rfl, fun h => ?_, ?_⟩
  · rw [or_0x80_of_le h] at hreply
    exact hreply
  · rw [← ((ready_iff s).1 hr).1]
    rfl

/-! ### The stages of a transaction (R85, R90, R92) -/

theorem State.endTransaction_eq_ite (s : State) :
    s.endTransaction = if s.hookWait = none then { s with phase := .idle } else s := by
  split
  · exact State.endTransaction_idle ‹_›
  · exact State.endTransaction_waiting ‹_›

/-- Settles O31: the bytes begin with the encoding of `i`, so the accepted PDU is dispatched to its handler. -/
theorem stepRunsTheDecodedInstruction : Obligations.StepRunsTheDecodedInstruction := by
  intro s bytes rest i tail hr hi hl hdecode
  obtain ⟨hw, rfl⟩ := encodeInvertsDecode bytes i tail hdecode
  obtain ⟨u, hu, -, hstep⟩ := step_pdu hr hi hl
  refine ⟨s.acceptPdu (encode i ++ tail) rest, State.acceptPdu_reqBytes s _ rest, rfl, ?_⟩
  rw [dispatch_encode hw] at hu
  rw [hstep, hu, State.endTransaction_eq_ite]

/-! ### Every PDU is answered (R94) -/

/-- Settles O35: a handler under an environment that answers waits for nothing, and its frame bounds the response,
the two bytes of an exception being within the smallest capacity of R5. -/
theorem everyPduIsAnswered : Obligations.EveryPduIsAnswered := by
  intro s bytes rest hr hi hl hanswering
  obtain ⟨u, -, hf, hstep⟩ := step_pdu hr hi hl
  have hw : u.hookWait = none := hf.hookWait_of_answering hanswering ((ready_iff s).1 hr).2
  rw [State.endTransaction_idle hw] at hstep
  refine ⟨_, hstep, rfl, (ready_iff _).2 ⟨rfl, hw⟩, ?_⟩
  rcases hf.reply with ⟨hwaits, -⟩ | ⟨-, hecho, -⟩ | ⟨-, hnormal, h2, h252, hfits, -⟩
  · exact absurd hw hwaits
  · exact .inl hecho
  · refine .inr ⟨hnormal, h2, h252, fun ⟨_, _, hcap⟩ => ?_⟩
    rcases hfits with hexc | hfits
    · show u.respLen ≤ s.params.respCap
      omega
    · exact hfits

/-- Settles O37: of everything a step can do, only the refusal of a PDU longer than the buffer is no next state. -/
theorem stepNeverStops : Obligations.StepNeverStops := by
  rintro s o rfl
  rcases step_cases s with ⟨-, hs⟩ | ⟨strap, rest, -, hs⟩ | ⟨op, rest, -, ⟨-, hs⟩ | ⟨-, hs⟩⟩ |
    ⟨bytes, rest, hi, ⟨-, hs⟩ | ⟨-, hlong, hs⟩ | ⟨-, -, t, -, -, hs⟩⟩
  · exact .inl ⟨_, hs⟩
  · exact .inl ⟨_, hs⟩
  · exact .inl ⟨_, hs⟩
  · exact .inl ⟨_, hs⟩
  · exact .inl ⟨_, hs⟩
  · exact .inr ⟨hs, bytes, rest, hi, hlong⟩
  · exact .inl ⟨_, hs⟩

end Sys2Proof.Machine
end

section
/-! When the register reads raise (family 42_read_registers): an outcome that is an exception, the two functions as
`ReadRegs`, and the statement O10 from them. -/

namespace Sys2Proof.Machine

/-! ### An outcome that is an exception (R121, R134) -/

/-- An outcome that is `raise` answers format EX and changes nothing else. -/
theorem raises_of_eq {o : Host.Outcome State Fault Refusal} {s t : State} {exc : Exc} {fc : Byte}
    (ho : o = .next t) (ht : t = s.raise exc fc) :
    ∃ t, o = .next t ∧ ExceptionReply s t fc (excCode exc) ∧ OnlyReplyChanged s t := by
  subst ht
  exact ⟨_, ho, raise_exceptionReply s exc fc, rfl⟩

/-! ### The register reads (R95 to R97) -/

theorem exec_rhr (start count : Word) (s : State) :
    exec (.rhr start count) s = .next (readRegs Config.fcReadHregs .hreg start count s) := rfl

theorem exec_rir {s : State} (hs : s.hregOnly = false) (start count : Word) :
    exec (.rir start count) s = .next (readRegs Config.fcReadIregs .ireg start count s) :=
  congrArg Host.Outcome.next (State.dispatched_off hs _ _)

/-- The value check of R95 fails exactly outside `1 <= count <= 125`. -/
theorem regCountOk_eq_false {count : Word} (h : count.toNat < 1 ∨ 125 < count.toNat) : regCountOk count = false := by
  rw [Bool.eq_false_iff, Ne, regCountOk_iff]
  omega

/-- Settles O10: the three ways `ReadRegs` raises, in the order of R132, each for `RHR` and for `RIR`. -/
theorem registerReadsRaise : Obligations.RegisterReadsRaise := by
  intro s start count
  refine ⟨fun hbad => ?value, fun h1 h125 => ?_⟩
  case value =>
    have hcount := regCountOk_eq_false hbad
    exact ⟨raises_of_eq (exec_rhr ..) (readRegs_illegalValue hcount ..),
      fun hs => raises_of_eq (exec_rir hs ..) (readRegs_illegalValue hcount ..)⟩
  have hcount := (regCountOk_iff count).2 ⟨h1, h125⟩
  refine ⟨fun habsent => ?rhrAddress, fun hs habsent => ?rirAddress,
    fun hlong => ⟨fun hpresent => ?rhrBuffer, fun hs hpresent => ?rirBuffer⟩⟩
  case rhrAddress =>
    exact raises_of_eq (exec_rhr ..) (readRegs_illegalAddress hcount (find_eq_none_iff.2 habsent) _)
  case rirAddress =>
    exact raises_of_eq (exec_rir hs ..) (readRegs_illegalAddress hcount (find_eq_none_iff.2 habsent) _)
  case rhrBuffer =>
    obtain ⟨_, hfind⟩ := find_of_present hpresent
    exact raises_of_eq (exec_rhr ..) (readRegs_slaveFailure hcount hfind hlong _)
  case rirBuffer =>
    obtain ⟨_, hfind⟩ := find_of_present hpresent
    exact raises_of_eq (exec_rir hs ..) (readRegs_slaveFailure hcount hfind hlong _)

end Sys2Proof.Machine
end

section
/-! When the bit reads raise (family 43_read_bits): the two functions as `ReadBits`, each of its three exceptions once
for both, and the statement O12 from them. -/

namespace Sys2Proof.Machine

/-! ### The bit reads (R101 to R103) -/

theorem exec_rc {s : State} (hs : s.hregOnly = false) (start count : Word) :
    exec (.rc start count) s = .next (readBits Config.fcReadCoils .coil start count s) :=
  congrArg Host.Outcome.next (State.dispatched_off hs _ _)

theorem exec_rdi {s : State} (hs : s.hregOnly = false) (start count : Word) :
    exec (.rdi start count) s = .next (readBits Config.fcReadDinputs .dinput start count s) :=
  congrArg Host.Outcome.next (State.dispatched_off hs _ _)

/-- The value check of R103 fails exactly outside `1 <= count <= 2000`. -/
theorem bitCountOk_eq_false {count : Word} (h : count.toNat < 1 ∨ 2000 < count.toNat) : bitCountOk count = false := by
  rw [Bool.eq_false_iff, Ne, bitCountOk_iff]
  omega

section BitReadOutcome
variable {o : Host.Outcome State Fault Refusal} {s : State} {fc : Byte} {kind : Kind} {start count : Word}
  (ho : o = .next (readBits fc kind start count s))
include ho

theorem readBits_raises_illegalValue (hbad : count.toNat < 1 ∨ 2000 < count.toNat) :
    ∃ t, o = .next t ∧ ExceptionReply s t fc (excCode .illegalValue) ∧ OnlyReplyChanged s t :=
  raises_of_eq ho (readBits_illegalValue (bitCountOk_eq_false hbad) ..)

theorem readBits_raises_illegalAddress (hcount : 1 ≤ count.toNat ∧ count.toNat ≤ 2000)
    (habsent : ¬ Present s.store (s.addrOf kind start.toNat)) :
    ∃ t, o = .next t ∧ ExceptionReply s t fc (excCode .illegalAddress) ∧ OnlyReplyChanged s t :=
  raises_of_eq ho (readBits_illegalAddress ((bitCountOk_iff count).2 hcount) (find_eq_none_iff.2 habsent) _)

theorem readBits_raises_slaveFailure (hcount : 1 ≤ count.toNat ∧ count.toNat ≤ 2000)
    (hlong : s.params.respCap < 2 + ceilDiv8 count.toNat)
    (hpresent : Present s.store (s.addrOf kind start.toNat)) :
    ∃ t, o = .next t ∧ ExceptionReply s t fc (excCode .slaveFailure) ∧ OnlyReplyChanged s t := by
  obtain ⟨_, hfind⟩ := find_of_present hpresent
  exact raises_of_eq ho (readBits_slaveFailure ((bitCountOk_iff count).2 hcount) hfind hlong _)

end BitReadOutcome

/-- Settles O12: the three ways `ReadBits` raises, in the order of R132, each for `RC` and for `RDI`. -/
theorem bitReadsRaise : Obligations.BitReadsRaise := by
  intro s start count hs
  have hrc := exec_rc hs start count
  have hrdi := exec_rdi hs start count
  refine ⟨fun hbad => ?value, fun h1 h2000 => ⟨?rcAddress, ?rdiAddress, fun hlong => ?buffer⟩⟩
  case value => exact ⟨readBits_raises_illegalValue hrc hbad, readBits_raises_illegalValue hrdi hbad⟩
  case rcAddress => exact readBits_raises_illegalAddress hrc ⟨h1, h2000⟩
  case rdiAddress => exact readBits_raises_illegalAddress hrdi ⟨h1, h2000⟩
  case buffer =>
    exact ⟨readBits_raises_slaveFailure hrc ⟨h1, h2000⟩ hlong, readBits_raises_slaveFailure hrdi ⟨h1, h2000⟩ hlong⟩

end Sys2Proof.Machine
end

section
/-! The single writes (family 44_write_single): what `WriteSingle` does to an existing entry and to an absent address,
which replies are an `Echo`, and the statements O13, O14 and O33 from these. -/

namespace Sys2Proof.Machine

/-! ### A write to an existing entry, and its read-back (R105 to R107) -/

theorem exec_wsr (off value : Word) (s : State) :
    exec (.wsr off value) s = .next (writeSingle Config.fcWriteHreg .hreg off value s) := rfl

/-- An exception's reply is stated against the old response buffer alone. -/
theorem ExceptionReply.of_resp_eq {s u t : State} {fc code : Byte} (h : ExceptionReply u t fc code)
    (hresp : u.resp = s.resp) : ExceptionReply s t fc code := by
  rw [ExceptionReply, DeadBytesKept, ← hresp]
  exact h

section WriteSingle
variable {s : State} {kind : Kind} {off : Word} {i : Nat} {e : Entry}
  (h : FirstAt s.store (s.addrOf kind off.toNat) i e)
include h

/-- Without a hook the read-back finds the value just stored. -/
theorem writeSingle_echoed (hh : e.hookEn = false) (value : Word) (fc : Byte) :
    SingleWriteEchoed s (writeSingle fc kind off value s) value i := by
  rw [writeSingle_ok (storeWrite_plain h hh value fc), if_pos (h.valueAt_set value)]
  exact ⟨oneValueChanged_setValueAt s.store i value, rfl⟩

/-- With a hook that answers, the read-back finds the answer, and compares it with the value requested. -/
theorem writeSingle_answered (hh : e.hookEn = true) (hn : ∀ rest, s.hookScript ≠ .never :: rest) (value : Word)
    (fc : Byte) :
    ∃ w, SingleWriteDone s (writeSingle fc kind off value s) fc (s.addrOf kind off.toNat) value i e w := by
  obtain ⟨u, w, hw, hstore, hcall, hu⟩ := storeWrite_answered h hh hn value fc
  have hchanged : OneValueChanged s.store u.store i w := hstore ▸ oneValueChanged_setValueAt s.store i w
  have hresp : u.resp = s.resp := by rw [hu]
  have hlen : u.respLen = s.respLen := by rw [hu]
  refine ⟨w, ?_⟩
  rw [writeSingle_ok hw, hstore, h.valueAt_set w]
  by_cases hv : w = value
  · rw [if_pos hv]
    refine ⟨hchanged, hcall, fun _ => ⟨rfl, hresp, hlen⟩, fun hne => absurd hv hne, ?_⟩
    rw [hu]
    rfl
  · rw [if_neg hv]
    have hexc := (raise_exceptionReply u .slaveFailure fc).of_resp_eq hresp
    refine ⟨hchanged, hcall, fun heq => absurd heq hv, fun _ => hexc, ?_⟩
    rw [hu]
    rfl

end WriteSingle

/-- Settles O13: both functions are `WriteSingle`, `WSC` behind the guard of `HREG_ONLY` and its value check. -/
theorem singleWritesStoreAndReadBack : Obligations.SingleWritesStoreAndReadBack := by
  refine fun s off value i e => ⟨fun h => ⟨fun hh => ?wsrPlain, fun hh hn => ?wsrHook⟩, fun hs hv h => ?wsc⟩
  case wsrPlain => exact ⟨_, exec_wsr .., writeSingle_echoed h hh value _⟩
  case wsrHook =>
    obtain ⟨w, hdone⟩ := writeSingle_answered h hh hn value Config.fcWriteHreg
    exact ⟨_, w, exec_wsr .., hdone⟩
  case wsc =>
    have hexec : exec (.wsc off value) s = .next _ := execWsc_legal hs ((coilValueOk_iff value).2 hv)
    refine ⟨fun hh => ⟨_, hexec, writeSingle_echoed h hh value _⟩, fun hh hn => ?_⟩
    obtain ⟨w, hdone⟩ := writeSingle_answered h hh hn value Config.fcWriteCoil
    exact ⟨_, w, hexec, hdone⟩

/-! ### The exceptions before any write (R105, R106, R132) -/

theorem writeSingle_illegalAddress {s : State} {kind : Kind} {off : Word}
    (h : ¬ Present s.store (s.addrOf kind off.toNat)) (value : Word) (fc : Byte) :
    writeSingle fc kind off value s = s.raise .illegalAddress fc :=
  writeSingle_absent (storeWrite_absent h value fc)

/-- The value check of R106 fails for every other value. -/
theorem coilValueOk_eq_false {value : Word} (hon : value ≠ 0xFF00#16) (hoff : value ≠ 0x0000#16) :
    coilValueOk value = false := by
  rw [Bool.eq_false_iff, Ne, coilValueOk_iff, not_or]
  exact ⟨hon, hoff⟩

/-- Settles O14: the value check of `WSC` stands before `WriteSingle`, which raises for an absent address. -/
theorem singleWritesRaise : Obligations.SingleWritesRaise := by
  refine fun s off value => ⟨fun habsent => ?wsrAddress,
    fun hs => ⟨fun hon hoff => ?wscValue, fun hv habsent => ?wscAddress⟩⟩
  case wsrAddress => exact raises_of_eq (exec_wsr ..) (writeSingle_illegalAddress habsent ..)
  case wscValue => exact raises_of_eq (execWsc_illegal hs (coilValueOk_eq_false hon hoff)) rfl
  case wscAddress =>
    exact raises_of_eq (execWsc_legal hs ((coilValueOk_iff value).2 hv)) (writeSingle_illegalAddress habsent ..)

/-! ### Which handlers end with `Echo` (R119 to R121) -/

/-- A handler that waits for no hook ended with mode `Normal`. -/
def EndsNormal (t : State) : Prop := t.hookWait = none → t.replyMode = .normal

theorem raise_endsNormal {s : State} {exc : Exc} {fc : Byte} : EndsNormal (s.raise exc fc) := fun _ => rfl

theorem respond_endsNormal {s : State} {bytes : List Byte} : EndsNormal (s.respond bytes) := fun _ => rfl

theorem alloc_endsNormal {s : State} {fc : Byte} {length : Nat} {rest : State → State}
    (h : ∀ t, EndsNormal (rest t)) : EndsNormal (s.alloc fc length rest) := by
  unfold State.alloc
  split
  · exact raise_endsNormal
  · exact h _

theorem dispatched_endsNormal {s : State} {fc : Byte} {handler : State → State} (h : EndsNormal (handler s)) :
    EndsNormal (s.dispatched fc handler) := by
  unfold State.dispatched
  split
  · exact raise_endsNormal
  · exact h

theorem readRegs_endsNormal {fc : Byte} {kind : Kind} {start count : Word} {s : State} :
    EndsNormal (readRegs fc kind start count s) := by
  unfold readRegs
  split
  · exact raise_endsNormal
  · split
    · exact raise_endsNormal
    · exact alloc_endsNormal fun _ => respond_endsNormal

theorem readBits_endsNormal {fc : Byte} {kind : Kind} {start count : Word} {s : State} :
    EndsNormal (readBits fc kind start count s) := by
  unfold readBits
  split
  · exact raise_endsNormal
  · split
    · exact raise_endsNormal
    · exact alloc_endsNormal fun _ => respond_endsNormal

theorem writeMultiple_endsNormal {fc : Byte} {kind : Kind} {start count : Word} {valueOk : Bool}
    {values : List Word} {s : State} : EndsNormal (writeMultiple fc kind start count valueOk values s) := by
  unfold writeMultiple
  split
  · exact raise_endsNormal
  · split
    · exact raise_endsNormal
    · refine alloc_endsNormal fun t => ?_
      obtain ⟨-, hwait, -⟩ := writeItems_frame kind start.toNat fc values 0 t
      rcases hw : State.writeItems kind start.toNat fc values 0 t with ⟨_ | _ | _, u⟩ <;> rw [hw] at hwait
      · exact respond_endsNormal
      · exact raise_endsNormal
      · exact fun hnone => absurd hnone (hwait rfl).1

/-- Of the instructions, only the two single writes can end with `Echo`. -/
theorem exec_endsNormal {i : Instr} {s t : State} (h : exec i s = .next t)
    (hfc : ¬ (instrFc i = Config.fcWriteCoil ∨ instrFc i = Config.fcWriteHreg)) : EndsNormal t := by
  cases i with
  | rc _ _ | rdi _ _ => cases h; exact dispatched_endsNormal readBits_endsNormal
  | rhr _ _ => cases h; exact readRegs_endsNormal
  | rir _ _ => cases h; exact dispatched_endsNormal readRegs_endsNormal
  | wsc _ _ => exact absurd (.inl rfl) hfc
  | wsr _ _ => exact absurd (.inr rfl) hfc
  | wmc _ _ _ _ =>
    rw [exec, execWmc] at h
    split at h <;> cases h
    exact dispatched_endsNormal writeMultiple_endsNormal
  | wmr _ _ _ _ =>
    rw [exec, execWmr] at h
    split at h <;> cases h
    exact writeMultiple_endsNormal

/-- A request that is answered with `Echo` begins with the function code of a single write. -/
theorem reqByte_of_dispatch_echo {s t : State} (h : dispatch s = .next t) (hw : t.hookWait = none)
    (hm : t.replyMode = .echo) : s.reqByte 0 = Config.fcWriteCoil ∨ s.reqByte 0 = Config.fcWriteHreg := by
  have hecho : ¬ EndsNormal t := fun hnormal => by cases hm.symm.trans (hnormal hw)
  unfold dispatch at h
  split at h
  · rename_i i hi
    rw [← decodeAt_fc hi]
    by_contra hfc
    exact hecho (exec_endsNormal h hfc)
  · cases h
    exact absurd raise_endsNormal hecho

/-- In mode `Echo` a handler that waits for no hook built nothing (R120). -/
theorem HandlerFrame.resp_of_echo {s t : State} (h : HandlerFrame s t) (hw : t.hookWait = none)
    (hm : t.replyMode = .echo) : t.resp = s.resp ∧ t.respLen = s.respLen := by
  rcases h.reply with ⟨hwaits, -⟩ | ⟨-, -, hbuilt⟩ | ⟨-, hnormal, -⟩
  · exact absurd hw hwaits
  · exact hbuilt
  · cases hm.symm.trans hnormal

/-- Settles O33: the frame of the handler keeps the accepted request and, in mode `Echo`, the response; byte 0 of the
request is its function code. -/
theorem echoIsTheRequest : Obligations.EchoIsTheRequest := by
  intro s t bytes rest hr hi hstep hidle hm
  obtain ⟨u, hu, hf, hs⟩ := step_pdu hr hi (length_le_reqCap_of_step_pdu hr hi hstep)
  cases hs.symm.trans hstep
  rw [State.endTransaction_replyMode] at hm
  have hw : u.hookWait = none := State.hookWait_of_endTransaction_idle hf.phase hidle
  obtain ⟨hresp, hlen⟩ := hf.resp_of_echo hw hm
  refine ⟨hf.endTransaction_reply_echo hm, ?_, ?_, fun fc hfc => ?_⟩
  · rw [State.endTransaction_respLen, hlen, State.acceptPdu_respLen]
  · rw [State.endTransaction_resp, hresp, State.acceptPdu_resp]
  · obtain ⟨tail, rfl⟩ := List.head?_eq_some_iff.1 hfc
    have hcode : (s.acceptPdu (fc :: tail) rest).reqByte 0 = fc := by simp [reqByte_acceptPdu]
    rw [← hcode]
    exact reqByte_of_dispatch_echo hu hw hm

end Sys2Proof.Machine
end

section
/-! The multi-writes (family 45_write_multiple): the two functions as `WriteMultiple` over the payload's words, what its
writes leave behind item by item, when it raises, and the statements O15 to O18 from these. -/

namespace Sys2Proof.Machine

/-! ### The two functions, and the layout of their payload (R110, R111, R113) -/

theorem payloadWord_eq_payloadRegister (payload : List Byte) : payloadWord payload = payloadRegister payload := by
  funext k
  apply BitVec.eq_of_toNat_eq
  have hhi := (payload.getD (2 * k) 0#8).isLt
  have hlo := (payload.getD (2 * k + 1) 0#8).isLt
  rw [payloadWord, payloadRegister, be16_toNat, BitVec.toNat_ofNat, Nat.mod_eq_of_lt (by omega)]

theorem coilWord_payloadBit (payload : List Byte) (k : Nat) :
    coilWord (payloadBit payload k) = payloadCoil payload k := by
  simp [coilWord, payloadBit, payloadCoil, BitVec.getLsbD, Nat.testBit_eq_decide_div_mod_eq, Config.coilOn,
    Config.coilOff]

theorem exec_wmr {start count : Word} {bc : Byte} {payload : List Byte}
    (hw : (Instr.wmr start count bc payload).wellFormed = true) (s : State) :
    exec (.wmr start count bc payload) s = .next (writeMultiple Config.fcWriteHregs .hreg start count
      (wmrValueOk count bc) ((List.range count.toNat).map (payloadRegister payload)) s) := by
  rw [exec, execWmr, if_pos hw, payloadWord_eq_payloadRegister]

theorem exec_wmc {start count : Word} {bc : Byte} {payload : List Byte}
    (hw : (Instr.wmc start count bc payload).wellFormed = true) {s : State} (hs : s.hregOnly = false) :
    exec (.wmc start count bc payload) s = .next (writeMultiple Config.fcWriteCoils .coil start count
      (wmcValueOk count bc) ((List.range count.toNat).map (payloadCoil payload)) s) := by
  simp only [exec, execWmc, if_pos hw, State.dispatched_off hs, coilWord_payloadBit]

/-- With the value check passed, the payload has `bc` bytes (R63), and the handler runs from its check of the range. -/
theorem exec_wmr_legal {start count : Word} {bc : Byte} {payload : List Byte} (hlen : payload.length = bc.toNat)
    (hlegal : WmrLegal count bc) (s : State) :
    exec (.wmr start count bc payload) s = .next (writeMultiple Config.fcWriteHregs .hreg start count true
      ((List.range count.toNat).map (payloadRegister payload)) s) := by
  have hok : wmrValueOk count bc = true := (wmrValueOk_iff count bc).2 hlegal
  rw [exec_wmr (by simp [Instr.wellFormed, payloadNeed, hok, hlen]), hok]

theorem exec_wmc_legal {start count : Word} {bc : Byte} {payload : List Byte} (hlen : payload.length = bc.toNat)
    (hlegal : WmcLegal count bc) {s : State} (hs : s.hregOnly = false) :
    exec (.wmc start count bc payload) s = .next (writeMultiple Config.fcWriteCoils .coil start count true
      ((List.range count.toNat).map (payloadCoil payload)) s) := by
  have hok : wmcValueOk count bc = true := (wmcValueOk_iff count bc).2 hlegal
  rw [exec_wmc (by simp [Instr.wellFormed, payloadNeed, hok, hlen]) hs, hok]

/-! ### When the multi-writes raise (R110 to R112, R132) -/

theorem present_iff_find {es : List Entry} {a : Addr} : Present es a ↔ ∃ i, find es a = some i := by
  rw [← Option.ne_none_iff_exists', Ne, find_eq_none_iff, not_not]

theorem rangeExists_iff_rangePresent {s : State} {kind : Kind} {start count : Nat} :
    s.rangeExists kind start count = true ↔ RangePresent s kind start count := by
  simp only [rangeExists_iff, RangePresent, present_iff_find]

section WriteMultipleRaises
variable {o : Host.Outcome State Fault Refusal} {s : State} {fc : Byte} {kind : Kind} {start count : Word}
  {valueOk : Bool} {values : List Word} (ho : o = .next (writeMultiple fc kind start count valueOk values s))
include ho

theorem writeMultiple_raises_illegalValue (hbad : ¬ valueOk = true) :
    ∃ t, o = .next t ∧ ExceptionReply s t fc (excCode .illegalValue) ∧ OnlyReplyChanged s t := by
  rw [Bool.not_eq_true] at hbad
  subst hbad
  exact raises_of_eq ho (writeMultiple_illegalValue ..)

theorem writeMultiple_raises_illegalAddress (hok : valueOk = true)
    (habsent : ¬ RangePresent s kind start.toNat count.toNat) :
    ∃ t, o = .next t ∧ ExceptionReply s t fc (excCode .illegalAddress) ∧ OnlyReplyChanged s t := by
  subst hok
  rw [← rangeExists_iff_rangePresent, Bool.not_eq_true] at habsent
  exact raises_of_eq ho (writeMultiple_illegalAddress habsent ..)

end WriteMultipleRaises

/-- Settles O17: both functions are `WriteMultiple`, which checks the value and then the whole range. -/
theorem multiWritesRaise : Obligations.MultiWritesRaise := by
  refine ⟨fun s start count bc payload hw => ?wmr, fun s start count bc payload hs hw => ?wmc⟩
  case wmr =>
    have hexec := exec_wmr hw s
    rw [WmrLegal, ← wmrValueOk_iff]
    exact ⟨writeMultiple_raises_illegalValue hexec, writeMultiple_raises_illegalAddress hexec⟩
  case wmc =>
    have hexec := exec_wmc hw hs
    rw [WmcLegal, ← wmcValueOk_iff]
    exact ⟨writeMultiple_raises_illegalValue hexec, writeMultiple_raises_illegalAddress hexec⟩

/-! ### All or nothing (R112) -/

theorem OnlyReplyChanged.noHookCalled {s t : State} (h : OnlyReplyChanged s t) : NoHookCalled s t := by
  rw [h]
  exact ⟨rfl, rfl, rfl, rfl⟩

/-- Where a failed value check raises and a failed address check does, either leaves the store as it was and calls no
hook. -/
theorem untouched_of_failed_check {o : Host.Outcome State Fault Refusal} {s : State} {fc code₁ code₂ : Byte}
    {legal present : Prop}
    (hvalue : ¬ legal → ∃ t, o = .next t ∧ ExceptionReply s t fc code₁ ∧ OnlyReplyChanged s t)
    (haddress : legal → ¬ present → ∃ t, o = .next t ∧ ExceptionReply s t fc code₂ ∧ OnlyReplyChanged s t)
    (hfails : ¬ (legal ∧ present)) :
    ∃ t, o = .next t ∧ t.store = s.store ∧ NoHookCalled s t ∧ OnlyReplyChanged s t := by
  have hraises : ∃ t, o = .next t ∧ OnlyReplyChanged s t := by
    by_cases hlegal : legal
    · obtain ⟨t, ht, -, honly⟩ := haddress hlegal fun hpresent => hfails ⟨hlegal, hpresent⟩
      exact ⟨t, ht, honly⟩
    · obtain ⟨t, ht, -, honly⟩ := hvalue hlegal
      exact ⟨t, ht, honly⟩
  obtain ⟨t, ht, honly⟩ := hraises
  exact ⟨t, ht, by rw [honly], honly.noHookCalled, honly⟩

/-- Settles O18: a failed check is one of the two exceptions of O17; past them every write finds its entry, and only a
hook that never answers makes one wait. -/
theorem multiWritesAreAllOrNothing : Obligations.MultiWritesAreAllOrNothing := by
  obtain ⟨hwmr, hwmc⟩ := multiWritesRaise
  refine ⟨fun s start count bc payload hw hfails => ?wmr, fun s start count bc payload hs hw hfails => ?wmc,
    fun s kind start src values hpresent => ?writes⟩
  case wmr =>
    obtain ⟨hvalue, haddress⟩ := hwmr s start count bc payload hw
    exact untouched_of_failed_check hvalue haddress hfails
  case wmc =>
    obtain ⟨hvalue, haddress⟩ := hwmc s start count bc payload hs hw
    exact untouched_of_failed_check hvalue haddress hfails
  case writes =>
    have hfound := writeItems_present kind start src values 0 s
      fun k _ hk => present_iff_find.1 (hpresent k (by omega))
    obtain ⟨-, hwaits, -⟩ := writeItems_frame kind start src values 0 s
    refine ⟨hfound, fun hanswering => ?_⟩
    cases hst : (State.writeItems kind start src values 0 s).1 with
    | ok => rfl
    | absent => exact absurd hst hfound
    | waiting => exact absurd rfl (hanswering _ (hwaits hst).2)

/-! ### Answered calls, one after another (R74) -/

theorem AnsweredBy.append {script₂ script₁ : List HookReply} {draws₂ draws₁ : Nat} {evs₂ : List HookEvent}
    (h₂ : AnsweredBy script₂ draws₂ evs₂ script₁ draws₁) {evs₁ : List HookEvent} {script : List HookReply}
    {draws : Nat} (h₁ : AnsweredBy script₁ draws₁ evs₁ script draws) :
    AnsweredBy script₂ draws₂ (evs₁ ++ evs₂) script draws := by
  induction evs₁ generalizing script draws with
  | nil =>
    obtain ⟨rfl, rfl⟩ := h₁
    exact h₂
  | cons ev evs ih =>
    rcases h₁ with ⟨rest, hscript, hrest⟩ | ⟨hended, hfree, hrest⟩
    · exact .inl ⟨rest, hscript, ih hrest⟩
    · exact .inr ⟨hended, hfree, ih hrest⟩

theorem CallsAnswered.refl (s : State) : CallsAnswered s s [] := ⟨(List.append_nil _).symm, rfl, rfl, rfl⟩

theorem CallsAnswered.trans {s t u : State} {evs₁ evs₂ : List HookEvent} (h₁ : CallsAnswered s t evs₁)
    (h₂ : CallsAnswered t u evs₂) : CallsAnswered s u (evs₁ ++ evs₂) := by
  obtain ⟨htrace₁, hwait₁, hby₁⟩ := h₁
  obtain ⟨htrace₂, hwait₂, hby₂⟩ := h₂
  exact ⟨by rw [htrace₂, htrace₁, List.append_assoc], hwait₂.trans hwait₁, hby₂.append hby₁⟩

/-- The event a write of `v` to the entry `e` records when `x` is stored: none without a hook. -/
def writeEvents (e : Entry) (a : Addr) (v x : Word) (src : Byte) : List HookEvent :=
  if e.hookEn then [⟨⟨e.hookId, a, v, src⟩, x⟩] else []

/-- A write to an existing entry that does not wait: without a hook the value is stored, with one the answer. -/
theorem storeWrite_stores {s : State} {a : Addr} {i : Nat} {e : Entry} (h : FirstAt s.store a i e)
    (hs : e.hookEn = true → Answering s) (v : Word) (src : Byte) :
    ∃ t x, s.storeWrite a v src = (.ok, t) ∧ t.store = setValueAt s.store i x ∧ (e.hookEn = false → x = v) ∧
      CallsAnswered s t (writeEvents e a v x src) := by
  cases hh : e.hookEn with
  | false =>
    refine ⟨_, v, storeWrite_plain h hh v src, rfl, fun _ => rfl, ?_⟩
    rw [writeEvents, hh]
    exact CallsAnswered.refl s
  | true =>
    have hn (rest : List HookReply) : s.hookScript ≠ .never :: rest := fun hnever =>
      hs hh .never (by simp [hnever]) rfl
    obtain ⟨t, x, hw, hstore, hcall, -⟩ := storeWrite_answered h hh hn v src
    exact ⟨t, x, hw, hstore, nofun, by simpa [writeEvents, hh] using hcall⟩

/-! ### The writes of a range, item by item (R45(b), R110, R111) -/

/-- The writes of items `0 .. m - 1` of a range led from `s` to `t`: `v` was proposed and `w` stored. -/
def ItemsWritten (s t : State) (kind : Kind) (start m : Nat) (src : Byte) (v w : Nat → Word) : Prop :=
  KeepsPlainItems s kind start m v w ∧ RangeStored s t kind start m w ∧
    CallsAnswered s t (rangeEvents s kind start m src v w)

theorem itemsWritten_zero (s : State) (kind : Kind) (start : Nat) (src : Byte) (v w : Nat → Word) :
    ItemsWritten s s kind start 0 src v w :=
  ⟨fun _ _ _ hk => absurd hk (Nat.not_lt_zero _),
    ⟨rfl, fun _ _ _ hk => absurd hk (Nat.not_lt_zero _), fun _ _ hj _ => hj⟩, CallsAnswered.refl s⟩

/-- The last item of a range is written after the others, if none of them waits. -/
theorem writeItems_append_singleton (kind : Kind) (start : Nat) (src : Byte) (v : Word) {vs : List Word} {k : Nat}
    {s t : State} (h : State.writeItems kind start src vs k s = (.ok, t)) :
    State.writeItems kind start src (vs ++ [v]) k s = t.kindWrite kind (start + (k + vs.length)) v src := by
  induction vs generalizing k s with
  | nil =>
    cases h
    rw [List.nil_append, State.writeItems]
    rcases t.kindWrite kind (start + k) v src with ⟨_ | _ | _, u⟩ <;> rfl
  | cons v₀ vs ih =>
    rw [State.writeItems] at h
    rw [List.cons_append, State.writeItems]
    rcases hw : s.kindWrite kind (start + k) v₀ src with ⟨_ | _ | _, u⟩ <;> rw [hw] at h
    · rw [List.length_cons, show k + (vs.length + 1) = k + 1 + vs.length by omega]
      exact ih h
    · cases h
    · cases h

theorem FirstAt.unique {es : List Entry} {a : Addr} {i j : Nat} {e d : Entry} (he : FirstAt es a i e)
    (hd : FirstAt es a j d) : i = j ∧ e = d := by
  obtain rfl : i = j := Option.some.inj (he.find_eq.symm.trans hd.find_eq)
  exact ⟨rfl, Option.some.inj (he.1.symm.trans hd.1)⟩

/-- Two items of one range less than `2^16` long have different first entries (R116). -/
theorem firstAt_index_ne {s : State} {kind : Kind} {start m k i j : Nat} {e d : Entry} (haddr : 16 ≤ s.params.addrW)
    (hm : m < 2 ^ 16) (hk : k < m) (he : FirstAt s.store (s.addrOf kind (start + m)) i e)
    (hd : FirstAt s.store (s.addrOf kind (start + k)) j d) : j ≠ i := by
  rintro rfl
  obtain ⟨hj, hea, -⟩ := he
  obtain ⟨hj', hda, -⟩ := hd
  cases hj.symm.trans hj'
  have := flat_injective haddr kind (by omega) (by omega) (hea.symm.trans hda)
  omega

section NextItem
variable {s t : State} {kind : Kind} {start m i : Nat} {e : Entry} {src : Byte} {v w : Nat → Word}
  (haddr : 16 ≤ s.params.addrW) (hm : m < 2 ^ 16) (he : FirstAt s.store (s.addrOf kind (start + m)) i e)
include haddr hm he

/-- The first entry of the next item is still as it was. -/
theorem RangeStored.getElem?_next (h : RangeStored s t kind start m w) : t.store[i]? = some e := by
  obtain ⟨-, -, hothers⟩ := h
  exact hothers i e he.1 fun k hk hfirst => firstAt_index_ne haddr hm hk he hfirst rfl

theorem RangeStored.firstAt_next (h : RangeStored s t kind start m w) (hf : WriteFrame s t) :
    FirstAt t.store (t.addrOf kind (start + m)) i e := by
  rw [State.addrOf, hf.params]
  obtain ⟨d, hd⟩ := find_eq_some_iff.1 ((find_congr hf.fixed _).trans he.find_eq)
  cases (h.getElem?_next haddr hm he).symm.trans hd.1
  exact hd

/-- The next item's value goes to an entry that no item below has. -/
theorem RangeStored.next (h : RangeStored s t kind start m w) {u : State} {x : Word}
    (hu : u.store = setValueAt t.store i x) :
    RangeStored s u kind start (m + 1) (Function.update w m x) := by
  have hi := h.getElem?_next haddr hm he
  obtain ⟨hlen, hitems, hothers⟩ := h
  have hget {j : Nat} (hj : j ≠ i) : u.store[j]? = t.store[j]? := by simp [hu, getElem?_setValueAt, hj]
  refine ⟨by rw [hu, length_setValueAt, hlen], fun k j d hk hd => ?_, fun j d hj hnone => ?_⟩
  · rcases Nat.lt_succ_iff_lt_or_eq.1 hk with hlt | rfl
    · rw [hget (firstAt_index_ne haddr hm hlt he hd), Function.update_of_ne hlt.ne]
      exact hitems k j d hlt hd
    · obtain ⟨rfl, rfl⟩ := he.unique hd
      simp [hu, getElem?_setValueAt, hi]
  · have hji : j ≠ i := by
      rintro rfl
      cases hj.symm.trans he.1
      exact hnone m (Nat.lt_succ_self m) he
    rw [hget hji]
    exact hothers j d hj fun k hk => hnone k (Nat.lt_succ_of_lt hk)

end NextItem

theorem rangeEvents_succ {s : State} {kind : Kind} {start m i : Nat} {e : Entry}
    (he : FirstAt s.store (s.addrOf kind (start + m)) i e) (src : Byte) (v w : Nat → Word) (x : Word) :
    rangeEvents s kind start (m + 1) src v (Function.update w m x) =
      rangeEvents s kind start m src v w ++ writeEvents e (s.addrOf kind (start + m)) (v m) x src := by
  rw [rangeEvents, List.range_succ, List.filterMap_append]
  congr 1
  · refine List.filterMap_congr fun k hk => ?_
    rw [Function.update_of_ne (List.mem_range.1 hk).ne]
  · cases hh : e.hookEn <;> simp [he.lookup_eq, hh, writeEvents]

/-- One more item: what its write stores and records is added to what the writes before it did. -/
theorem ItemsWritten.next {s t u : State} {kind : Kind} {start m i : Nat} {e : Entry} {src : Byte} {v w : Nat → Word}
    {x : Word} (h : ItemsWritten s t kind start m src v w) (haddr : 16 ≤ s.params.addrW) (hm : m < 2 ^ 16)
    (he : FirstAt s.store (s.addrOf kind (start + m)) i e) (hstore : u.store = setValueAt t.store i x)
    (hplain : e.hookEn = false → x = v m)
    (hcalls : CallsAnswered t u (writeEvents e (s.addrOf kind (start + m)) (v m) x src)) :
    ItemsWritten s u kind start (m + 1) src v (Function.update w m x) := by
  obtain ⟨hplains, hstored, hanswered⟩ := h
  refine ⟨fun k j d hk hd hh => ?_, hstored.next haddr hm he hstore, ?_⟩
  · rcases Nat.lt_succ_iff_lt_or_eq.1 hk with hlt | rfl
    · rw [Function.update_of_ne hlt.ne]
      exact hplains k j d hlt hd hh
    · obtain ⟨rfl, rfl⟩ := he.unique hd
      rw [Function.update_self]
      exact hplain hh
  · rw [rangeEvents_succ he]
    exact hanswered.trans hcalls

/-- Where an item of the range has a hook, the environment answers (R149). -/
def AnswersRange (s : State) (kind : Kind) (start m : Nat) : Prop :=
  ∀ k i e, k < m → FirstAt s.store (s.addrOf kind (start + k)) i e → e.hookEn = true → Answering s

/-- Over existing entries, with no hook left unanswered, every item is written. -/
theorem writeItems_written {s : State} {kind : Kind} {start : Nat} (src : Byte) (v : Nat → Word)
    (haddr : 16 ≤ s.params.addrW) {m : Nat} (hm : m ≤ 2 ^ 16) (hpresent : RangePresent s kind start m)
    (hanswers : AnswersRange s kind start m) :
    ∃ t w, State.writeItems kind start src ((List.range m).map v) 0 s = (.ok, t) ∧
      ItemsWritten s t kind start m src v w := by
  induction m with
  | zero => exact ⟨s, v, rfl, itemsWritten_zero s kind start src v v⟩
  | succ m ih =>
    obtain ⟨t, w, ht, hwritten⟩ := ih (by omega) (fun k hk => hpresent k (by omega))
      fun k i e hk => hanswers k i e (by omega)
    obtain ⟨hf, -, -, hscript⟩ := writeItems_frame kind start src ((List.range m).map v) 0 s
    rw [ht] at hf hscript
    obtain ⟨i, hi⟩ := find_of_present (hpresent m (Nat.lt_succ_self m))
    obtain ⟨e, he⟩ := find_eq_some_iff.1 hi
    have ⟨_, hstored, _⟩ := hwritten
    have hat : FirstAt t.store (t.addrOf kind (start + m)) i e := hstored.firstAt_next haddr hm he hf
    obtain ⟨u, x, hu, hstore, hplain, hcalls⟩ := storeWrite_stores hat
      (fun hh r hr => hanswers m i e (Nat.lt_succ_self m) he hh r (hscript.subset hr)) (v m) src
    have hsame : t.addrOf kind (start + m) = s.addrOf kind (start + m) := by rw [State.addrOf, hf.params]
    rw [hsame] at hcalls
    refine ⟨u, _, ?_, hwritten.next haddr hm he hstore hplain hcalls⟩
    rw [List.range_succ, List.map_append, List.map_singleton, writeItems_append_singleton _ _ _ _ ht]
    simpa using hu

/-! ### A range without hooks -/

theorem rangeEvents_eq_nil {s : State} {kind : Kind} {start m : Nat} {src : Byte} {v w : Nat → Word}
    (hplain : ∀ k i e, k < m → FirstAt s.store (s.addrOf kind (start + k)) i e → e.hookEn = false) :
    rangeEvents s kind start m src v w = [] := by
  rw [rangeEvents, List.filterMap_eq_nil_iff]
  intro k hk
  cases hf : find s.store (s.addrOf kind (start + k)) with
  | none => rw [lookup_none hf]
  | some i =>
    obtain ⟨e, he⟩ := find_eq_some_iff.1 hf
    simp [he.lookup_eq, hplain k i e (List.mem_range.1 hk) he]

theorem RangeStored.congr {s t : State} {kind : Kind} {start m : Nat} {v w : Nat → Word}
    (h : RangeStored s t kind start m w)
    (hvw : ∀ k i e, k < m → FirstAt s.store (s.addrOf kind (start + k)) i e → w k = v k) :
    RangeStored s t kind start m v := by
  obtain ⟨hlen, hitems, hothers⟩ := h
  exact ⟨hlen, fun k i e hk he => hvw k i e hk he ▸ hitems k i e hk he, hothers⟩

/-! ### A completed multi-write (R114, R115) -/

theorem rangeReply_formatWR {s t : State} {fc : Byte} {start count : Word} (hm : t.replyMode = .normal)
    (hl : t.respLen = 5) (hr : t.resp = s.resp.writeBytes 0 (formatWR fc start count)) :
    RangeReply s t fc start count := by
  have hread {k : Nat} (hk : k < 5) : t.resp.read k = (formatWR fc start count).getD k 0#8 := by
    rw [hr, read_writeBytes_zero _ _ (by simpa using hk)]
  refine ⟨hm, hl, hread (by omega), ?_, ?_, ?_, ?_, deadBytesKept_writeBytes hr⟩
  · rw [hread (by omega), ← hiByte_eq_upper]; rfl
  · rw [hread (by omega), ← loByte_eq_lower]; rfl
  · rw [hread (by omega), ← hiByte_eq_upper]; rfl
  · rw [hread (by omega), ← loByte_eq_lower]; rfl

section Completed
variable {s : State} {kind : Kind} {start count : Word} (hp : s.params.Ok)
  (hpresent : RangePresent s kind start.toNat count.toNat)
include hp hpresent

/-- Past its checks, and with no hook of the range left unanswered, a multi-write is done. -/
theorem writeMultiple_done (hanswers : AnswersRange s kind start.toNat count.toNat) (fc : Byte) (v : Nat → Word) :
    RangeWriteDone s (writeMultiple fc kind start count true ((List.range count.toNat).map v) s) fc kind start count
      v := by
  obtain ⟨haddr, -, hcap⟩ := hp
  obtain ⟨u, w, hu, hwritten⟩ :=
    writeItems_written (s := { s with respLen := 5 }) fc v haddr (by omega) hpresent hanswers
  obtain ⟨⟨-, -, hrest⟩, -⟩ :=
    writeItems_frame kind start.toNat fc ((List.range count.toNat).map v) 0 { s with respLen := 5 }
  rw [hu] at hrest
  dsimp only at hrest
  have ⟨_, _, _, hwait, _⟩ := hwritten
  rw [writeMultiple_ok (rangeExists_iff_rangePresent.2 hpresent) hcap, hu]
  refine ⟨rangeReply_formatWR rfl ?_ ?_, ⟨w, hwritten⟩, ?_⟩
  · rw [State.respond_respLen, hrest]
  · rw [State.respond_resp, hrest]
  · dsimp only
    rw [State.respond, hrest, hwait]

/-- Over entries without hooks it stores what was proposed and leaves the hook port as it was. -/
theorem writeMultiple_stores (hplain : ∀ k i e, k < count.toNat →
      FirstAt s.store (s.addrOf kind (start.toNat + k)) i e → e.hookEn = false)
    {o : Host.Outcome State Fault Refusal} {fc : Byte} {v : Nat → Word}
    (ho : o = .next (writeMultiple fc kind start count true ((List.range count.toNat).map v) s)) :
    ∃ t, o = .next t ∧ RangeReply s t fc start count ∧ RangeStored s t kind start.toNat count.toNat v ∧
      t = { s with store := t.store, resp := t.resp, respLen := 5, replyMode := .normal } := by
  have hanswers : AnswersRange s kind start.toNat count.toNat :=
    fun k i e hk he hh => by cases hh.symm.trans (hplain k i e hk he)
  obtain ⟨hreply, ⟨w, hkeeps, hstored, hcalls⟩, hrest⟩ := writeMultiple_done hp hpresent hanswers fc v
  rw [rangeEvents_eq_nil hplain] at hcalls
  obtain ⟨htrace, -, hscript, hdraws⟩ := hcalls
  refine ⟨_, ho, hreply, hstored.congr fun k i e hk he => hkeeps k i e hk he (hplain k i e hk he), ?_⟩
  rw [hscript, hdraws, htrace, List.append_nil, hreply.1, hreply.2.1] at hrest
  exact hrest

end Completed

/-- Settles O15: the payload's words are what `WriteMultiple` proposes, and without hooks what it stores. -/
theorem multiWritesStoreTheRange : Obligations.MultiWritesStoreTheRange := by
  refine fun s start count bc payload hp hlen => ⟨fun hlegal hpresent hplain => ?wmr,
    fun hs hlegal hpresent hplain => ?wmc⟩
  case wmr => exact writeMultiple_stores hp hpresent hplain (exec_wmr_legal hlen hlegal s)
  case wmc => exact writeMultiple_stores hp hpresent hplain (exec_wmc_legal hlen hlegal hs)

/-- Settles O16: an environment that answers leaves no write of the range waiting. -/
theorem multiWritesDoNotReadBack : Obligations.MultiWritesDoNotReadBack := by
  refine fun s start count bc payload hp hlen hanswering => ⟨fun hlegal hpresent => ?wmr,
    fun hs hlegal hpresent => ?wmc⟩
  case wmr =>
    exact ⟨_, exec_wmr_legal hlen hlegal s, writeMultiple_done hp hpresent (fun _ _ _ _ _ _ => hanswering) _ _⟩
  case wmc =>
    exact ⟨_, exec_wmc_legal hlen hlegal hs, writeMultiple_done hp hpresent (fun _ _ _ _ _ _ => hanswering) _ _⟩

end Sys2Proof.Machine
end

section
/-! Exceptions and the previous reply (family 60_exceptions): what a raise changes, that a transaction neither depends
on the reply before it nor shows anything of it, and the statements O7 and O42 from that. -/

namespace Sys2Proof.Machine

/-- Settles O7: a raise is written as such an update, and its reply is `raise_exceptionReply` at each of the four. -/
theorem raiseChangesOnlyTheReply : Obligations.RaiseChangesOnlyTheReply :=
  ⟨fun _ _ _ => rfl, fun s fc =>
    ⟨raise_exceptionReply s .illegalFunction fc, raise_exceptionReply s .illegalAddress fc,
      raise_exceptionReply s .illegalValue fc, raise_exceptionReply s .slaveFailure fc⟩⟩

/-! ### Another reply left behind -/

/-- The same state with other bytes in the response buffer and another reply mode: what acceptance keeps of a previous
reply (R85). -/
def State.withReply (s : State) (resp : Memory) (mode : ReplyMode) : State :=
  { s with resp := resp, replyMode := mode }

section WithReply
variable (s : State) (resp : Memory) (mode : ReplyMode)

@[simp] theorem State.withReply_store : (s.withReply resp mode).store = s.store := rfl
@[simp] theorem State.withReply_hookScript : (s.withReply resp mode).hookScript = s.hookScript := rfl
@[simp] theorem State.withReply_addrOf (kind : Kind) (off : Nat) :
    (s.withReply resp mode).addrOf kind off = s.addrOf kind off := rfl
@[simp] theorem State.withReply_reqByte : (s.withReply resp mode).reqByte = s.reqByte := rfl

/-! The write path reads nothing of the reply and leaves it there. -/

theorem callHook_withReply (c : HookCall) :
    (s.withReply resp mode).callHook c = ((s.callHook c).1, (s.callHook c).2.withReply resp mode) := by
  simp only [State.callHook, State.withReply_hookScript]
  rcases s.hookScript with _ | ⟨_ | _, rest⟩ <;> rfl

theorem storeWrite_withReply (a : Addr) (v : Word) (src : Byte) :
    (s.withReply resp mode).storeWrite a v src =
      ((s.storeWrite a v src).1, (s.storeWrite a v src).2.withReply resp mode) := by
  simp only [State.storeWrite, State.withReply_store, callHook_withReply]
  cases find s.store a with
  | none => rfl
  | some i =>
    cases lookup s.store a with
    | none => rfl
    | some e =>
      dsimp only
      cases e.hookEn with
      | false => rfl
      | true => rcases s.callHook ⟨e.hookId, a, v, src⟩ with ⟨_ | w, t⟩ <;> rfl

theorem writeItems_withReply (kind : Kind) (start : Nat) (src : Byte) (vs : List Word) (k : Nat) (s : State) :
    State.writeItems kind start src vs k (s.withReply resp mode) =
      ((State.writeItems kind start src vs k s).1,
        (State.writeItems kind start src vs k s).2.withReply resp mode) := by
  induction vs generalizing k s with
  | nil => rfl
  | cons v vs ih =>
    simp only [State.writeItems, State.kindWrite_eq, State.withReply_addrOf, storeWrite_withReply]
    rcases s.storeWrite (s.addrOf kind (start + k)) v src with ⟨_ | _ | _, t⟩
    · exact ih (k + 1) t
    · rfl
    · rfl

end WithReply

theorem WriteFrame.respLen {s t : State} (h : WriteFrame s t) : t.respLen = s.respLen := by rw [h.rest]

/-! ### States with the same reply -/

/-- `u` is `t` but for the response bytes and the mode, and unless a hook call waits the mode is the same and, in mode
`Normal`, so is the response. -/
structure RepliesAlike (t u : State) : Prop where
  rest : u = t.withReply u.resp u.replyMode
  reply : t.hookWait = none →
    u.replyMode = t.replyMode ∧ (t.replyMode = .normal → u.respBytes = t.respBytes)

theorem RepliesAlike.respLen {t u : State} (h : RepliesAlike t u) : u.respLen = t.respLen := by rw [h.rest]; rfl
theorem RepliesAlike.hookWait {t u : State} (h : RepliesAlike t u) : u.hookWait = t.hookWait := by rw [h.rest]; rfl
theorem RepliesAlike.reqBytes {t u : State} (h : RepliesAlike t u) : u.reqBytes = t.reqBytes := by rw [h.rest]; rfl

theorem RepliesAlike.onlyReplyChanged {t u : State} (h : RepliesAlike t u) : OnlyReplyChanged t u := by
  unfold OnlyReplyChanged
  rw [h.respLen]
  exact h.rest

/-- The transport transmits the same from both (R123). -/
theorem RepliesAlike.reply_eq {t u : State} (h : RepliesAlike t u) (hw : t.hookWait = none) : u.reply = t.reply := by
  obtain ⟨hmode, hresp⟩ := h.reply hw
  rw [State.reply, State.reply, hmode]
  cases hm : t.replyMode with
  | suppressed => rfl
  | echo => exact h.reqBytes
  | normal => exact hresp hm

/-- A response is the bytes written, whatever stood in the buffer before (R119, R121). -/
theorem State.respBytes_of_written {t : State} {m : Memory} {bytes : List Byte} (hr : t.resp = m.writeBytes 0 bytes)
    (hl : t.respLen = bytes.length) : t.respBytes = bytes := by
  refine List.ext_getElem (by simp [State.respBytes, hl]) fun k _ hk => ?_
  simp [State.respBytes, hr, read_writeBytes_zero m bytes hk, hk]

/-! ### Each handler builds the same reply whatever the previous one was (R137, R151) -/

section Handlers
variable {s : State} {fc : Byte} {resp : Memory} {mode : ReplyMode}

theorem raise_repliesAlike (exc : Exc) : RepliesAlike (s.raise exc fc) ((s.withReply resp mode).raise exc fc) :=
  ⟨rfl, fun _ => ⟨rfl, fun _ =>
    (State.respBytes_of_written rfl rfl).trans (State.respBytes_of_written rfl rfl).symm⟩⟩

theorem respond_repliesAlike {bytes : List Byte} (h : s.respLen = bytes.length) :
    RepliesAlike (s.respond bytes) ((s.withReply resp mode).respond bytes) :=
  ⟨rfl, fun _ => ⟨rfl, fun _ =>
    (State.respBytes_of_written (t := (s.withReply resp mode).respond bytes) rfl h).trans
      (State.respBytes_of_written (t := s.respond bytes) rfl h).symm⟩⟩

theorem echo_repliesAlike : RepliesAlike s.echo (s.withReply resp mode).echo :=
  ⟨rfl, fun _ => ⟨rfl, fun hnormal => by cases hnormal⟩⟩

theorem waiting_repliesAlike (h : s.hookWait ≠ none) : RepliesAlike s (s.withReply resp mode) :=
  ⟨rfl, fun hnone => absurd hnone h⟩

/-- A check that reads nothing of the reply, and raises when it fails. -/
theorem check_repliesAlike {c : Prop} [Decidable c] {exc : Exc} {t u : State} (h : RepliesAlike t u) :
    RepliesAlike (if c then s.raise exc fc else t) (if c then (s.withReply resp mode).raise exc fc else u) := by
  split
  · exact raise_repliesAlike exc
  · exact h

theorem alloc_repliesAlike {length : Nat} {rest : State → State}
    (h : ∀ t, t.respLen = length → RepliesAlike (rest t) (rest (t.withReply resp mode))) :
    RepliesAlike (s.alloc fc length rest) ((s.withReply resp mode).alloc fc length rest) :=
  check_repliesAlike (h { s with respLen := length } rfl)

theorem dispatched_repliesAlike {handler : State → State}
    (h : RepliesAlike (handler s) (handler (s.withReply resp mode))) :
    RepliesAlike (s.dispatched fc handler) ((s.withReply resp mode).dispatched fc handler) :=
  check_repliesAlike h

theorem readRegs_repliesAlike (kind : Kind) (start count : Word) :
    RepliesAlike (readRegs fc kind start count s) (readRegs fc kind start count (s.withReply resp mode)) :=
  check_repliesAlike <| check_repliesAlike <| alloc_repliesAlike fun _ hlen =>
    respond_repliesAlike (hlen.trans (length_formatRR ..).symm)

theorem readBits_repliesAlike (kind : Kind) (start count : Word) :
    RepliesAlike (readBits fc kind start count s) (readBits fc kind start count (s.withReply resp mode)) :=
  check_repliesAlike <| check_repliesAlike <| alloc_repliesAlike fun _ hlen =>
    respond_repliesAlike (hlen.trans (length_formatRB ..).symm)

theorem writeSingle_repliesAlike (kind : Kind) (off value : Word) :
    RepliesAlike (writeSingle fc kind off value s) (writeSingle fc kind off value (s.withReply resp mode)) := by
  have hother := storeWrite_withReply s resp mode (s.addrOf kind off.toNat) value fc
  obtain ⟨-, hwait, -⟩ := storeWrite_frame s (s.addrOf kind off.toNat) value fc
  rcases hw : s.storeWrite (s.addrOf kind off.toNat) value fc with ⟨_ | _ | _, t⟩ <;> rw [hw] at hother hwait
  · rw [writeSingle_ok hw, writeSingle_ok hother]
    change RepliesAlike _ (if valueAt t.store (s.addrOf kind off.toNat) = value then _ else _)
    split
    · exact echo_repliesAlike
    · exact raise_repliesAlike _
  · rw [writeSingle_absent hw, writeSingle_absent hother]
    exact raise_repliesAlike _
  · rw [writeSingle_waiting hw, writeSingle_waiting hother]
    exact waiting_repliesAlike (hwait rfl).1

theorem writeMultiple_repliesAlike (kind : Kind) (start count : Word) (valueOk : Bool) (values : List Word) :
    RepliesAlike (writeMultiple fc kind start count valueOk values s)
      (writeMultiple fc kind start count valueOk values (s.withReply resp mode)) := by
  refine check_repliesAlike <| check_repliesAlike <| alloc_repliesAlike fun t hlen => ?_
  obtain ⟨hframe, hwait, -⟩ := writeItems_frame kind start.toNat fc values 0 t
  rw [writeItems_withReply]
  rcases hw : State.writeItems kind start.toNat fc values 0 t with ⟨_ | _ | _, u⟩ <;> rw [hw] at hframe hwait
  · exact respond_repliesAlike (hframe.respLen.trans hlen)
  · exact raise_repliesAlike _
  · exact waiting_repliesAlike (hwait rfl).1

theorem exec_repliesAlike {i : Instr} {t : State} (h : exec i s = .next t) (resp : Memory) (mode : ReplyMode) :
    ∃ u, exec i (s.withReply resp mode) = .next u ∧ RepliesAlike t u := by
  cases i with
  | rc _ _ | rdi _ _ => cases h; exact ⟨_, rfl, dispatched_repliesAlike (readBits_repliesAlike ..)⟩
  | rhr _ _ => cases h; exact ⟨_, rfl, readRegs_repliesAlike ..⟩
  | rir _ _ => cases h; exact ⟨_, rfl, dispatched_repliesAlike (readRegs_repliesAlike ..)⟩
  | wsc _ _ =>
    cases h
    exact ⟨_, rfl, dispatched_repliesAlike (check_repliesAlike (writeSingle_repliesAlike ..))⟩
  | wsr _ _ => cases h; exact ⟨_, rfl, writeSingle_repliesAlike ..⟩
  | wmc _ _ _ _ =>
    rw [exec, execWmc] at h ⊢
    split at h <;> cases h
    rename_i hw
    exact ⟨_, if_pos hw, dispatched_repliesAlike (writeMultiple_repliesAlike ..)⟩
  | wmr _ _ _ _ =>
    rw [exec, execWmr] at h ⊢
    split at h <;> cases h
    rename_i hw
    exact ⟨_, if_pos hw, writeMultiple_repliesAlike ..⟩

/-- The decoder reads the request, so both states dispatch alike (R86 to R88). -/
theorem dispatch_repliesAlike {t : State} (h : dispatch s = .next t) (resp : Memory) (mode : ReplyMode) :
    ∃ u, dispatch (s.withReply resp mode) = .next u ∧ RepliesAlike t u := by
  rw [dispatch] at h ⊢
  rw [State.withReply_reqByte]
  cases hd : decodeAt s.reqByte with
  | none =>
    rw [hd] at h
    cases h
    exact ⟨_, rfl, raise_repliesAlike _⟩
  | some i =>
    rw [hd] at h
    exact exec_repliesAlike h resp mode

end Handlers

theorem RepliesAlike.endTransaction {t u : State} (h : RepliesAlike t u) :
    RepliesAlike t.endTransaction u.endTransaction := by
  by_cases hw : t.hookWait = none
  · rw [State.endTransaction_idle hw, State.endTransaction_idle (h.hookWait.trans hw)]
    exact ⟨congrArg (fun v : State => { v with phase := .idle }) h.rest, h.reply⟩
  · rw [State.endTransaction_waiting hw, State.endTransaction_waiting (h.hookWait ▸ hw)]
    exact h

/-- Settles O42: acceptance sets the length to 0, so what is left of the previous reply is bytes and mode, and the
handler and the end of the transaction keep the two states alike. -/
theorem previousReplyNeverLeaks : Obligations.PreviousReplyNeverLeaks := by
  intro s t resp respLen mode bytes rest hr hi hstep
  have hlen := length_le_reqCap_of_step_pdu hr hi hstep
  obtain ⟨v, hv, hf, hs⟩ := step_pdu hr hi hlen
  obtain ⟨w, hw, -, hs'⟩ :=
    step_pdu (s := { s with resp := resp, respLen := respLen, replyMode := mode }) hr hi hlen
  cases hs.symm.trans hstep
  obtain ⟨w', hw', halike⟩ := dispatch_repliesAlike hv resp mode
  obtain rfl : w = w' := Host.Outcome.next.inj (hw.symm.trans hw')
  refine ⟨_, hs', halike.endTransaction.onlyReplyChanged, fun hidle => ?_⟩
  have hnone : v.endTransaction.hookWait = none := by
    rw [State.endTransaction_hookWait]
    exact State.hookWait_of_endTransaction_idle hf.phase hidle
  exact ⟨halike.endTransaction.reply_eq hnone, (halike.endTransaction.reply hnone).1, halike.endTransaction.respLen⟩

end Sys2Proof.Machine
end

section
/-! Reset, the empty store, and the hook that never answers (family 70_reset_and_hazards): what a request meets in an
empty store, how each kind of write comes to wait and what its wait leaves, and the statements O20, O21, O36, O44 and
O45 from these. -/

namespace Sys2Proof.Machine

/-! ### The empty store (R146) -/

theorem not_present_of_store_eq_nil {s : State} (h : s.store = []) (a : Addr) : ¬ Present s.store a := by
  simp [Present, h]

theorem not_rangePresent_of_store_eq_nil {s : State} (h : s.store = []) {kind : Kind} {start count : Nat}
    (hc : 1 ≤ count) : ¬ RangePresent s kind start count :=
  fun hpresent => not_present_of_store_eq_nil h _ (hpresent 0 hc)

section Checked
variable {o : Host.Outcome State Fault Refusal} {s : State} {fc code₁ code₂ : Byte} {legal : Prop}
  (hvalue : ¬ legal → ∃ t, o = .next t ∧ ExceptionReply s t fc code₁ ∧ OnlyReplyChanged s t)
  (haddress : legal → ∃ t, o = .next t ∧ ExceptionReply s t fc code₂ ∧ OnlyReplyChanged s t)
include hvalue haddress

/-- A request that raises whether its value check fails or not: one of the two exceptions is its outcome. -/
theorem raises_either : ∃ t, o = .next t ∧ OnlyReplyChanged s t ∧ (legal → ExceptionReply s t fc code₂) ∧
    (¬ legal → ExceptionReply s t fc code₁) := by
  by_cases hlegal : legal
  · obtain ⟨t, ht, hreply, honly⟩ := haddress hlegal
    exact ⟨t, ht, honly, fun _ => hreply, fun hbad => absurd hlegal hbad⟩
  · obtain ⟨t, ht, hreply, honly⟩ := hvalue hlegal
    exact ⟨t, ht, honly, fun hok => absurd hok hlegal, fun _ => hreply⟩

theorem raises_ite [Decidable legal] :
    ∃ t, o = .next t ∧ OnlyReplyChanged s t ∧ ExceptionReply s t fc (if legal then code₂ else code₁) := by
  obtain ⟨t, ht, honly, hlegal, hbad⟩ := raises_either hvalue haddress
  refine ⟨t, ht, honly, ?_⟩
  split
  · exact hlegal ‹_›
  · exact hbad ‹_›

end Checked

/-- Settles O21: in an empty store the address check of each handler fails, so past its value check a request is one of
the address exceptions of O10, O12, O14 and O17. -/
theorem emptyStoreAnswersIllegalAddress : Obligations.EmptyStoreAnswersIllegalAddress := by
  intro s hempty hs i hw
  have habsent := not_present_of_store_eq_nil hempty
  cases i with
  | rc start count =>
    obtain ⟨hvalue, haddress⟩ := bitReadsRaise s start count hs
    exact raises_ite (fun hbad => (hvalue (by omega)).1) fun ⟨h1, h2⟩ => (haddress h1 h2).1 (habsent _)
  | rdi start count =>
    obtain ⟨hvalue, haddress⟩ := bitReadsRaise s start count hs
    exact raises_ite (fun hbad => (hvalue (by omega)).2) fun ⟨h1, h2⟩ => (haddress h1 h2).2.1 (habsent _)
  | rhr start count =>
    obtain ⟨hvalue, haddress⟩ := registerReadsRaise s start count
    exact raises_ite (fun hbad => (hvalue (by omega)).1) fun ⟨h1, h2⟩ => (haddress h1 h2).1 (habsent _)
  | rir start count =>
    obtain ⟨hvalue, haddress⟩ := registerReadsRaise s start count
    exact raises_ite (fun hbad => (hvalue (by omega)).2 hs) fun ⟨h1, h2⟩ => (haddress h1 h2).2.1 hs (habsent _)
  | wsc off value =>
    obtain ⟨-, hwsc⟩ := singleWritesRaise s off value
    obtain ⟨hvalue, haddress⟩ := hwsc hs
    exact raises_ite (fun hbad => hvalue (mt .inl hbad) (mt .inr hbad)) fun hok => haddress hok (habsent _)
  | wsr off value =>
    obtain ⟨t, ht, hreply, honly⟩ := (singleWritesRaise s off value).1 (habsent _)
    exact ⟨t, ht, honly, hreply⟩
  | wmc start count bc payload =>
    obtain ⟨hvalue, haddress⟩ := multiWritesRaise.2 s start count bc payload hs hw
    exact raises_either hvalue fun hok => haddress hok (not_rangePresent_of_store_eq_nil hempty hok.1)
  | wmr start count bc payload =>
    obtain ⟨hvalue, haddress⟩ := multiWritesRaise.1 s start count bc payload hw
    exact raises_either hvalue fun hok => haddress hok (not_rangePresent_of_store_eq_nil hempty hok.1)

/-! ### Reset (R24, R145) -/

/-- Settles O20: the values `resetBy` gives, whatever the state was. -/
theorem resetGivesTheResetValues : Obligations.ResetGivesTheResetValues :=
  fun _ _ _ hi => ⟨_, step_reset hi, rfl, rfl, rfl, rfl, rfl, rfl, rfl, rfl, rfl, rfl, rfl⟩

/-! ### A `cfg_write` that waits (R148, R149) -/

theorem cfgWrite_waiting {s t : State} {kind : Kind} {off value : Word}
    (h : s.storeWrite (s.addrOf kind off.toNat) value s.params.srcLocal = (.waiting, t)) :
    cfgWrite kind off value s = { t with cfgOut := none } := by
  simp [cfgWrite, h]

/-- Settles O45: `cfg_write` is the write path of the engine that has taken the operation, and that write waits. -/
theorem cfgWriteWaitsForItsHook : Obligations.CfgWriteWaitsForItsHook := by
  intro s kind off value rest i e more hr hi he hh hnever
  rw [step_cfg hr hi, cfgExec]
  exact congrArg _ (cfgWrite_waiting (storeWrite_waiting (s := { s with inputs := rest }) he hh hnever _ _))

/-- A `cfg_write` after which a call waits, where none did before, answered nothing and stored nothing. -/
theorem cfgWrite_of_waits {s : State} (hw : s.hookWait = none) {kind : Kind} {off value : Word}
    (h : (cfgWrite kind off value s).hookWait ≠ none) :
    (cfgWrite kind off value s).cfgOut = none ∧ (cfgWrite kind off value s).store = s.store := by
  rcases cfgWrite_cases kind off value s with
    ⟨-, heq⟩ | ⟨i, e, -, -, ⟨-, heq⟩ | ⟨-, w, t, ht, -, heq⟩ | ⟨-, rest, -, heq⟩⟩ <;> rw [heq] at h ⊢
  · exact absurd hw h
  · exact absurd hw h
  · rw [ht.2] at h
    exact absurd hw h
  · exact ⟨rfl, rfl⟩

/-! ### The engine while it waits (R149) -/

theorem not_ready_of_waits {s : State} (h : s.hookWait ≠ none) : s.ready = false := by
  rw [Bool.eq_false_iff, Ne, ready_iff]
  exact fun ⟨_, hw⟩ => h hw

/-- A handler after which a call waits, where none did before, wrote no mode. -/
theorem HandlerFrame.replyMode_of_waits {s t : State} (h : HandlerFrame s t) (hs : s.hookWait = none)
    (hw : t.hookWait ≠ none) : t.replyMode = s.replyMode := by
  rcases h.reply with ⟨-, -, hm, -⟩ | ⟨hsame, -⟩ | ⟨hsame, -⟩
  · exact hm
  · exact absurd (hsame.trans hs) hw
  · exact absurd (hsame.trans hs) hw

/-- An engine that is not ready takes nothing but a reset (R16, R149). -/
theorem step_not_ready {s : State} (hr : s.ready = false) (hn : ∀ strap rest, s.inputs ≠ .reset strap :: rest) :
    step s = .next s := by
  rcases step_cases s with ⟨-, hs⟩ | ⟨strap, rest, hi, -⟩ | ⟨op, rest, -, ⟨hr', -⟩ | ⟨-, hs⟩⟩ |
    ⟨bytes, rest, -, ⟨-, hs⟩ | ⟨hr', -⟩ | ⟨hr', -⟩⟩
  · exact hs
  · exact absurd hi (hn strap rest)
  · cases hr.symm.trans hr'
  · exact hs
  · exact hs
  · cases hr.symm.trans hr'
  · cases hr.symm.trans hr'

/-- A single write to a hooked entry whose call is never answered ends with the call on the port. -/
theorem writeSingle_waits {s : State} {kind : Kind} {off : Word} {i : Nat} {e : Entry} {more : List HookReply}
    (h : FirstAt s.store (s.addrOf kind off.toNat) i e) (hh : e.hookEn = true) (hnever : s.hookScript = .never :: more)
    (value : Word) (fc : Byte) :
    writeSingle fc kind off value s =
      { s with hookScript := more, hookWait := some ⟨e.hookId, s.addrOf kind off.toNat, value, fc⟩ } :=
  writeSingle_waiting (storeWrite_waiting h hh hnever value fc)

/-- Settles O36: a wait that was not there before the step comes from the handler or from the write of `cfg_write`, and
only a reset ends it. -/
theorem unansweredHookWaitsForReset : Obligations.UnansweredHookWaitsForReset := by
  refine ⟨fun s t bytes rest hr hi hstep hwaits => ?transaction, fun s t kind off value rest hr hi hstep hwaits => ?cfg,
    fun t => step_not_ready, fun t strap rest hi => ⟨_, step_reset hi, rfl, rfl⟩,
    fun s off value i e more hh hnever => ⟨fun h => ?wsr, fun hs hv h => ?wsc⟩⟩
  case transaction =>
    obtain ⟨u, -, hf, hu⟩ := step_pdu hr hi (length_le_reqCap_of_step_pdu hr hi hstep)
    cases hu.symm.trans hstep
    rw [State.endTransaction_hookWait] at hwaits
    rw [State.endTransaction_waiting hwaits]
    have hphase : u.phase = .processing := hf.phase
    exact ⟨hphase, by rw [State.busy, hphase]; rfl, not_ready_of_waits hwaits,
      hf.replyMode_of_waits ((ready_iff s).1 hr).2 hwaits⟩
  case cfg =>
    obtain ⟨hphase, hnone⟩ := (ready_iff s).1 hr
    cases (step_cfg hr hi).symm.trans hstep
    exact ⟨(cfgExec_frame _ _).phase.trans hphase, not_ready_of_waits hwaits,
      cfgWrite_of_waits (s := { s with inputs := rest }) hnone hwaits⟩
  case wsr => exact congrArg _ (writeSingle_waits h hh hnever value _)
  case wsc =>
    exact (execWsc_legal hs ((coilValueOk_iff value).2 hv)).trans (congrArg _ (writeSingle_waits h hh hnever value _))

/-! ### A multi-write that waits (R110, R111, R149) -/

/-- The environment's part of the script that answers these calls as recorded. -/
def scriptOf (evs : List HookEvent) : List HookReply := evs.map fun ev => .answer ev.stored

/-- A write whose call, if its entry has a hook, is answered by the script: what is stored is known beforehand. -/
theorem storeWrite_scripted {s : State} {a : Addr} {i : Nat} {e : Entry} (h : FirstAt s.store a i e) {v x : Word}
    {src : Byte} {more : List HookReply} (hplain : e.hookEn = false → x = v)
    (hscript : s.hookScript = scriptOf (writeEvents e a v x src) ++ more) :
    ∃ t, s.storeWrite a v src = (.ok, t) ∧ t.store = setValueAt s.store i x ∧ t = { s with
      store := t.store, hookScript := more, hookTrace := s.hookTrace ++ writeEvents e a v x src } := by
  cases hh : e.hookEn with
  | false =>
    obtain rfl : s.hookScript = more := by simpa [writeEvents, hh, scriptOf] using hscript
    exact ⟨_, storeWrite_plain h hh v src, by rw [hplain hh], by simp [writeEvents, hh]⟩
  | true =>
    have hanswer : s.hookScript = .answer x :: more := by simpa [writeEvents, hh, scriptOf] using hscript
    refine ⟨{ s with
      store := setValueAt s.store i x, hookScript := more, hookTrace := s.hookTrace ++ writeEvents e a v x src },
      ?_, rfl, rfl⟩
    simp [State.storeWrite, h.find_eq, h.lookup_eq, hh, State.callHook, hanswer, writeEvents]

/-- A write that waits is the last of its range (R149). -/
theorem writeItems_append_of_waiting {kind : Kind} {start : Nat} {src : Byte} {vs : List Word} {k : Nat} {s t : State}
    (h : State.writeItems kind start src vs k s = (.waiting, t)) (us : List Word) :
    State.writeItems kind start src (vs ++ us) k s = (.waiting, t) := by
  induction vs generalizing k s with
  | nil => cases h
  | cons v vs ih =>
    rw [State.writeItems] at h
    rw [List.cons_append, State.writeItems]
    rcases hw : s.kindWrite kind (start + k) v src with ⟨_ | _ | _, u⟩ <;> rw [hw] at h
    · exact ih h
    · cases h
    · exact h

section RangeWaits
variable {s : State} {kind : Kind} {start m : Nat} {src : Byte} {v w : Nat → Word}

/-- One more item whose value is the one the range stores at it. -/
theorem rangeEvents_succ_self {i : Nat} {e : Entry} (he : FirstAt s.store (s.addrOf kind (start + m)) i e) :
    rangeEvents s kind start (m + 1) src v w =
      rangeEvents s kind start m src v w ++ writeEvents e (s.addrOf kind (start + m)) (v m) (w m) src := by
  simpa using rangeEvents_succ he src v w (w m)

section NextWrite
variable {t : State} (ht : State.writeItems kind start src ((List.range m).map v) 0 s = (.ok, t))
include ht

theorem writeFrame_of_writeItems : WriteFrame s t := by
  have hf := (writeItems_frame kind start src ((List.range m).map v) 0 s).1
  rwa [ht] at hf

/-- Behind the writes of the items below it, the write of item `m`. -/
theorem writeItems_range_succ :
    State.writeItems kind start src ((List.range (m + 1)).map v) 0 s =
      t.storeWrite (s.addrOf kind (start + m)) (v m) src := by
  have hf := writeFrame_of_writeItems ht
  rw [List.range_succ, List.map_append, List.map_singleton, writeItems_append_singleton _ _ _ _ ht, State.kindWrite_eq,
    List.length_map, List.length_range, Nat.zero_add, State.addrOf, hf.params]

/-- That write finds the entry of item `m` as it was. -/
theorem RangeStored.firstAt_succ (hstored : RangeStored s t kind start m w) (haddr : 16 ≤ s.params.addrW)
    (hm : m < 2 ^ 16) {i : Nat} {e : Entry} (he : FirstAt s.store (s.addrOf kind (start + m)) i e) :
    FirstAt t.store (s.addrOf kind (start + m)) i e := by
  have hf := writeFrame_of_writeItems ht
  have hat := hstored.firstAt_next haddr hm he hf
  rw [State.addrOf, hf.params] at hat
  exact hat

end NextWrite

/-- Where the script answers the calls of a range with `w`, the writes of the range store `w` and leave the rest of the
script. -/
theorem writeItems_scripted (haddr : 16 ≤ s.params.addrW) (hm : m ≤ 2 ^ 16) (hpresent : RangePresent s kind start m)
    (hkeeps : KeepsPlainItems s kind start m v w) {more : List HookReply}
    (hscript : s.hookScript = scriptOf (rangeEvents s kind start m src v w) ++ more) :
    ∃ t, State.writeItems kind start src ((List.range m).map v) 0 s = (.ok, t) ∧ RangeStored s t kind start m w ∧
      t = { s with
        store := t.store, hookScript := more, hookTrace := s.hookTrace ++ rangeEvents s kind start m src v w } := by
  induction m generalizing more with
  | zero =>
    obtain ⟨-, hstored, -⟩ := itemsWritten_zero s kind start src v w
    obtain rfl : s.hookScript = more := hscript
    exact ⟨s, rfl, hstored, by simp [rangeEvents]⟩
  | succ m ih =>
    obtain ⟨i, hi⟩ := find_of_present (hpresent m (Nat.lt_succ_self m))
    obtain ⟨e, he⟩ := find_eq_some_iff.1 hi
    rw [rangeEvents_succ_self he, scriptOf, List.map_append, List.append_assoc] at hscript
    obtain ⟨t, ht, hstored, hrest⟩ := ih (by omega) (fun k hk => hpresent k (by omega))
      (fun k i e hk => hkeeps k i e (by omega)) hscript
    obtain ⟨u, hu, hstore, hlast⟩ := storeWrite_scripted (hstored.firstAt_succ ht haddr hm he) (src := src)
      (hkeeps m i e (Nat.lt_succ_self m) he) (more := more) (by rw [hrest]; rfl)
    refine ⟨u, (writeItems_range_succ ht).trans hu, by simpa using hstored.next haddr hm he hstore, ?_⟩
    rw [hlast, hrest, rangeEvents_succ_self he]
    simp

/-- The first item whose call is never answered is the last that is touched. -/
theorem writeItems_waits (haddr : 16 ≤ s.params.addrW) {count : Nat} (hcount : count ≤ 2 ^ 16) (hm : m < count)
    (hpresent : RangePresent s kind start count) {i : Nat} {e : Entry}
    (he : FirstAt s.store (s.addrOf kind (start + m)) i e) (hh : e.hookEn = true) {more : List HookReply}
    (hscript : ScriptedThenNever s kind start m src v w more) :
    ∃ t, State.writeItems kind start src ((List.range count).map v) 0 s = (.waiting, t) ∧
      RangeStored s t kind start m w ∧
      t = { s with
        store := t.store, hookScript := more, hookTrace := s.hookTrace ++ rangeEvents s kind start m src v w,
        hookWait := some ⟨e.hookId, s.addrOf kind (start + m), v m, src⟩ } := by
  obtain ⟨hkeeps, hscript⟩ := hscript
  obtain ⟨t, ht, hstored, hrest⟩ :=
    writeItems_scripted haddr (by omega) (fun k hk => hpresent k (by omega)) hkeeps hscript
  have hwaits := (writeItems_range_succ ht).trans
    (storeWrite_waiting (hstored.firstAt_succ ht haddr (by omega) he) hh (rest := more) (by rw [hrest]) (v m) src)
  obtain ⟨d, rfl⟩ := Nat.exists_eq_add_of_le (Nat.succ_le_of_lt hm)
  rw [List.range_add, List.map_append]
  exact ⟨_, writeItems_append_of_waiting hwaits _, hstored, by rw [hrest]⟩

end RangeWaits

theorem writeMultiple_waits {s : State} {fc : Byte} {kind : Kind} {start count : Word} {m i : Nat} {e : Entry}
    {v w : Nat → Word} {more : List HookReply} (hp : s.params.Ok) (hm : m < count.toNat) (hh : e.hookEn = true)
    (hpresent : RangePresent s kind start.toNat count.toNat)
    (he : FirstAt s.store (s.addrOf kind (start.toNat + m)) i e)
    (hscript : ScriptedThenNever s kind start.toNat m fc v w more) :
    RangeWriteWaits s (writeMultiple fc kind start count true ((List.range count.toNat).map v) s) fc kind start.toNat m
      e v w more := by
  obtain ⟨haddr, -, hcap⟩ := hp
  obtain ⟨t, ht, hwaits⟩ :=
    writeItems_waits (s := { s with respLen := 5 }) haddr (by omega) hm hpresent he hh hscript
  rw [writeMultiple_ok (rangeExists_iff_rangePresent.2 hpresent) hcap, ht]
  exact hwaits

/-- Settles O44: past the checks of `WriteMultiple`, the script answers the calls of the items below `m` and the call of
`m` waits. -/
theorem multiWritesWaitForTheirHook : Obligations.MultiWritesWaitForTheirHook := by
  refine fun s start count bc payload m i e w more hp hlen hm hh => ⟨fun hlegal hpresent he hscript => ?wmr,
    fun hs hlegal hpresent he hscript => ?wmc⟩
  case wmr => exact ⟨_, exec_wmr_legal hlen hlegal s, writeMultiple_waits hp hm hh hpresent he hscript⟩
  case wmc => exact ⟨_, exec_wmc_legal hlen hlegal hs, writeMultiple_waits hp hm hh hpresent he hscript⟩

end Sys2Proof.Machine
end
